-- ==== Sys2Proof/Word.lean ====
section
/-!
DEFINITION. The byte and the byte buffer, the only storage unit MBD-CORE has (00_scope.md R5, section 5.2).
-/

namespace Sys2Proof

/-- A byte: 8 bits, an unsigned value 0 to 255, bit 0 the least significant (R5, D19). -/
abbrev Byte := BitVec 8

/-- A buffer: a finite sequence of bytes, index 0 first on the wire (00_scope.md section 5.2, R30). -/
abbrev Buffer := List Byte

end Sys2Proof
end

