-- ==== Sys2Proof/Config.lean ====
section
/-!
DEFINITION. What the spec fixes as constants of the hardware (00_scope.md section 4) and the one open bound the model
has to name. Nothing here has a free value: every operation of MBD-CORE is a function (R7).
-/

namespace Sys2Proof.Config

/-- Length of the sensor-native peak record (R52). -/
abbrev packedLen : Nat := 12

/-- Length of the canonical peak record (R53). -/
abbrev peakLen : Nat := 18

/-- Length of the configuration record (R54). -/
abbrev cfgLen : Nat := 40

/-- Length of the status encoding (R55). -/
abbrev statLen : Nat := 1

/-- Tag plus count of a `Data` message (R57). -/
abbrev dataHdrLen : Nat := 9

/-- Length of a `Status` message (R58). -/
abbrev msgStatusLen : Nat := 2

/-- Length of a `Config` message (R59). -/
abbrev msgConfigLen : Nat := 41

/-- MAXPEAKS, the largest number of peaks of a `Message::Data` handed to MSG_SER. The spec leaves it open with
`MAXPEAKS <= 2^64 - 1` (D16). DESIGN CHOICE: the largest admissible value, so that a claim about every presentable message
holds for every smaller bound (log 5, safe). -/
abbrev maxPeaks : Nat := 2 ^ 64 - 1

end Sys2Proof.Config
end

