-- ==== Sys2Proof/Machine/Data.lean ====
section
/-!
DEFINITION. The data model: the records the operations consume and produce (10_state.md section 4), the wire formats
(30_encoding.md R50), and a transaction as the caller presents it (R11). All of it is plain data.
-/

namespace Sys2Proof

/-- One detected pulse event (R18). Field order is that of the canonical encoding. Every combination of values is valid. -/
structure MeasuredPeak where
  timestamp  : BitVec 64
  peakHeight : BitVec 32
  speed      : BitVec 16
  cycle      : BitVec 32
  deriving DecidableEq, Repr

/-- Detector tuning parameters, in declared order (R20). To the block they are five opaque 64-bit integers. -/
structure FilterConfig where
  pthresh : BitVec 64
  tdead   : BitVec 64
  k       : BitVec 64
  l       : BitVec 64
  m       : BitVec 64
  deriving DecidableEq, Repr

/-- The 2-valued control signal; an invalid status cannot be represented (R21, D18). -/
inductive Status where
  | start
  | stop
  deriving DecidableEq, Repr

/-- The transport envelope, a tagged union with exactly three variants (R22). -/
inductive Message where
  | data (peaks : List MeasuredPeak)
  | status (s : Status)
  | config (c : FilterConfig)
  deriving DecidableEq, Repr

/-- The result type of the decode operations' errors (R23). The fault of UNPACK_PEAK is deliberately no member (R143). -/
inductive DeserializeError where
  | bufferTooShort (missing : Nat)
  | invalidDiscriminant
  deriving DecidableEq, Repr

/-- What a deserializer gives: the value and the number of leading bytes consumed, or an error and nothing else
(R13, R106, R130). -/
inductive Decoded (α : Type) where
  | ok (value : α) (consumed : Nat)
  | raised (e : DeserializeError)
  deriving DecidableEq, Repr

/-- The formats of R50. The three message formats are one envelope whose tag byte selects the variant (R56). -/
inductive WireFormat where
  | be16
  | be32
  | be64
  | packed12
  | peak18
  | cfg40
  | stat1
  | msg
  deriving DecidableEq, Repr

/-- The request record (R11). `val` is 64 bits wide and an operation takes the low bits it needs (log 9). -/
structure Request where
  op    : BitVec 4
  input : Buffer
  val   : BitVec 64
  peak  : MeasuredPeak
  cfg   : FilterConfig
  stat  : Status
  msg   : Message
  deriving DecidableEq, Repr

/-- `in_len`, the length of the input buffer (R11). -/
def Request.inLen (r : Request) : Nat := r.input.length

/-- A transaction as the caller presents it: a request record (R11), or a string handed over under its wire format, which
stands for the request of the operation that reads the format (log 8, DESIGN CHOICE, safe). -/
inductive Presented where
  | request (r : Request)
  | wire (f : WireFormat) (bytes : Buffer)
  deriving DecidableEq, Repr

end Sys2Proof
end

