-- ==== Sys2Proof/Syntax.lean ====
section
/-!
DEFINITION. One constructor per row of spec/opcode_table.json: the 15 operations of 30_encoding.md R70 with their operands,
the row of the op value 0xF (R71), and the 13 rows of the wire formats (R50 to R63), each with the fields its row names.
-/

namespace Sys2Proof

/-- An instruction of MBD-CORE: an operation with its operands, or a string of a wire format to be read. -/
inductive Instr where
  /-- ENC16, R80. -/
  | enc16 (val : BitVec 16)
  /-- ENC32, R81. -/
  | enc32 (val : BitVec 32)
  /-- ENC64, R82. -/
  | enc64 (val : BitVec 64)
  /-- DEC16, R83: exactly 2 bytes by type. -/
  | dec16 (b0 b1 : Byte)
  /-- DEC32, R84: exactly 4 bytes by type. -/
  | dec32 (b0 b1 b2 b3 : Byte)
  /-- DEC64, R85: exactly 8 bytes by type. -/
  | dec64 (b0 b1 b2 b3 b4 b5 b6 b7 : Byte)
  /-- UNPACK_PEAK, R90: an input of any length. -/
  | unpackPeak (input : Buffer)
  /-- PEAK_SER, R100. -/
  | peakSer (peak : MeasuredPeak)
  /-- PEAK_DES, R101. -/
  | peakDes (input : Buffer)
  /-- CFG_SER, R102. -/
  | cfgSer (cfg : FilterConfig)
  /-- CFG_DES, R103. -/
  | cfgDes (input : Buffer)
  /-- STAT_SER, R104. -/
  | statSer (stat : Status)
  /-- STAT_DES, R105. -/
  | statDes (input : Buffer)
  /-- MSG_SER, R120. -/
  | msgSer (msg : Message)
  /-- MSG_DES, R124. -/
  | msgDes (input : Buffer)
  /-- OP_F_REFUSED, R71: the op value that names no operation. -/
  | opFRefused
  /-- BE16, R51: a two-byte big-endian integer. -/
  | be16 (v : BitVec 16)
  /-- BE32, R51. -/
  | be32 (v : BitVec 32)
  /-- BE64, R51. -/
  | be64 (v : BitVec 64)
  /-- PACKED12, R52: the four packed fields at their sensor-native widths. -/
  | packed12 (timestamp : BitVec 40) (cycle : BitVec 18) (speed : BitVec 10) (peakHeight : BitVec 28)
  /-- PEAK18, R53. -/
  | peak18 (peak : MeasuredPeak)
  /-- CFG40, R54. -/
  | cfg40 (cfg : FilterConfig)
  /-- STAT_START, R55: the byte 0x00. -/
  | statStart
  /-- STAT_STOP, R55: the byte 0x01. -/
  | statStop
  /-- STAT_INVALID, R63: a byte in 0x02 to 0xFF. -/
  | statInvalid (x : Byte)
  /-- MSG_DATA, R57. -/
  | msgData (peaks : List MeasuredPeak)
  /-- MSG_STATUS, R58: the whole byte at offset 1, valid or not. -/
  | msgStatus (s : Byte)
  /-- MSG_CONFIG, R59. -/
  | msgConfig (cfg : FilterConfig)
  /-- MSG_INVALID_TAG, R62: a tag byte in 0x03 to 0xFF. -/
  | msgInvalidTag (x : Byte)
  deriving DecidableEq, Repr

end Sys2Proof
end

