-- ==== Sys2Proof/WellFormed.lean ====
section
/-!
DEFINITION. Which instructions can be presented. The types carry almost everything (operand widths, the exact sizes of the
primitive decoders' inputs, valid status values); three checks remain.
-/

namespace Sys2Proof

/-- At most MAXPEAKS peaks in a `Data` message (R22, R121, D16). -/
def Message.presentable : Message → Bool
  | .data peaks => decide (peaks.length ≤ Config.maxPeaks)
  | .status _ => true
  | .config _ => true

/-- The checks on an instruction: the bound of R121 on a message to serialize, the 64-bit count of R57, and the value
ranges of the two reserved rows (R62, R63). Every other instruction is well formed by type. -/
def Instr.wellFormed : Instr → Bool
  | .enc16 _ => true
  | .enc32 _ => true
  | .enc64 _ => true
  | .dec16 _ _ => true
  | .dec32 _ _ _ _ => true
  | .dec64 _ _ _ _ _ _ _ _ => true
  | .unpackPeak _ => true
  | .peakSer _ => true
  | .peakDes _ => true
  | .cfgSer _ => true
  | .cfgDes _ => true
  | .statSer _ => true
  | .statDes _ => true
  | .msgSer msg => msg.presentable
  | .msgDes _ => true
  | .opFRefused => true
  | .be16 _ => true
  | .be32 _ => true
  | .be64 _ => true
  | .packed12 _ _ _ _ => true
  | .peak18 _ => true
  | .cfg40 _ => true
  | .statStart => true
  | .statStop => true
  | .statInvalid x => decide (2 ≤ x.toNat)
  | .msgData peaks => decide (peaks.length < 2 ^ 64)
  | .msgStatus _ => true
  | .msgConfig _ => true
  | .msgInvalidTag x => decide (3 ≤ x.toNat)

end Sys2Proof
end

