-- ==== Sys2Proof/Machine/Operands.lean ====
section
/-!
DEFINITION. The operand forms: reading and writing every wire format of 30_encoding.md. Byte order is decided here once,
by explicit shift and mask (R33, R87); every wider access is built from `byteAt`.
-/

namespace Sys2Proof.Machine

/-! ### Buffers -/

/-- `in[i]`. It is only used where a length test has established `i < len(in)` (R33), so the value past the end is never
part of any result. -/
def byteAt (buf : Buffer) (i : Nat) : Byte := buf.getD i 0

/-- `MemRead(addr, n)`: the `n` bytes of the buffer that start at offset `addr` (00_scope.md section 5.2). -/
def memRead (buf : Buffer) (addr n : Nat) : Buffer := (buf.drop addr).take n

/-! ### Primitive integers (R51, R60) -/

/-- `be_enc_16` (R80). -/
def beEnc16 (v : BitVec 16) : Buffer := [v.extractLsb' 8 8, v.extractLsb' 0 8]

/-- `be_enc_32` (R81). -/
def beEnc32 (v : BitVec 32) : Buffer :=
  [v.extractLsb' 24 8, v.extractLsb' 16 8, v.extractLsb' 8 8, v.extractLsb' 0 8]

/-- `be_enc_64` (R82). -/
def beEnc64 (v : BitVec 64) : Buffer :=
  [v.extractLsb' 56 8, v.extractLsb' 48 8, v.extractLsb' 40 8, v.extractLsb' 32 8,
   v.extractLsb' 24 8, v.extractLsb' 16 8, v.extractLsb' 8 8, v.extractLsb' 0 8]

/-- `be_dec_16` (R83). -/
def beDec16 (b0 b1 : Byte) : BitVec 16 := (b0.setWidth 16 <<< 8) ||| b1.setWidth 16

/-- `be_dec_32` (R84). -/
def beDec32 (b0 b1 b2 b3 : Byte) : BitVec 32 :=
  (b0.setWidth 32 <<< 24) ||| (b1.setWidth 32 <<< 16) ||| (b2.setWidth 32 <<< 8) ||| b3.setWidth 32

/-- `be_dec_64` (R85). -/
def beDec64 (b0 b1 b2 b3 b4 b5 b6 b7 : Byte) : BitVec 64 :=
  (b0.setWidth 64 <<< 56) ||| (b1.setWidth 64 <<< 48) ||| (b2.setWidth 64 <<< 40) ||| (b3.setWidth 64 <<< 32)
    ||| (b4.setWidth 64 <<< 24) ||| (b5.setWidth 64 <<< 16) ||| (b6.setWidth 64 <<< 8) ||| b7.setWidth 64

/-- `be_dec_16(MemRead(a, 2))`, a `BE16` field at offset `a` (R60). -/
def be16At (buf : Buffer) (a : Nat) : BitVec 16 := beDec16 (byteAt buf a) (byteAt buf (a + 1))

/-- `be_dec_32(MemRead(a, 4))`, a `BE32` field at offset `a` (R60). -/
def be32At (buf : Buffer) (a : Nat) : BitVec 32 :=
  beDec32 (byteAt buf a) (byteAt buf (a + 1)) (byteAt buf (a + 2)) (byteAt buf (a + 3))

/-- `be_dec_64(MemRead(a, 8))`, a `BE64` field at offset `a` (R60). -/
def be64At (buf : Buffer) (a : Nat) : BitVec 64 :=
  beDec64 (byteAt buf a) (byteAt buf (a + 1)) (byteAt buf (a + 2)) (byteAt buf (a + 3))
    (byteAt buf (a + 4)) (byteAt buf (a + 5)) (byteAt buf (a + 6)) (byteAt buf (a + 7))

/-- The widths `W` of the primitive codec: 16, 32, 64 (00_scope.md section 5.3). -/
inductive PrimWidth where
  | w16
  | w32
  | w64
  deriving DecidableEq, Repr

/-- `W / 8`. -/
def primBytes : PrimWidth → Nat
  | .w16 => 2
  | .w32 => 4
  | .w64 => 8

/-- `W`. -/
abbrev primBits : PrimWidth → Nat
  | .w16 => 16
  | .w32 => 32
  | .w64 => 64

/-- `be_enc_W(v)` (R80 to R82). -/
def beEnc : (w : PrimWidth) → BitVec (primBits w) → Buffer
  | .w16, v => beEnc16 v
  | .w32, v => beEnc32 v
  | .w64, v => beEnc64 v

/-- `be_dec_W(b)`, for a buffer of exactly `W / 8` bytes (R83 to R85). -/
def beDec : (w : PrimWidth) → Buffer → BitVec (primBits w)
  | .w16, b => be16At b 0
  | .w32, b => be32At b 0
  | .w64, b => be64At b 0

/-- The round trip law of R86 at width `W`: `be_dec_W(be_enc_W(v)) = v` for every value, and `be_enc_W(be_dec_W(b)) = b` for every
buffer of `W / 8` bytes. `primRoundTrip_holds` (Laws/Operands.lean) proves it at each width. -/
def PrimRoundTrip (w : PrimWidth) : Prop :=
  (∀ v : BitVec (primBits w), beDec w (beEnc w v) = v) ∧
    ∀ b : Buffer, b.length = primBytes w → beEnc w (beDec w b) = b

/-! ### Canonical records -/

/-- The 18 bytes of `PEAK18` (R53, R100). -/
def peak18Bytes (p : MeasuredPeak) : Buffer :=
  beEnc64 p.timestamp ++ beEnc32 p.peakHeight ++ beEnc16 p.speed ++ beEnc32 p.cycle

/-- A `PEAK18` record at offset `a` (R53, R101). -/
def peak18At (buf : Buffer) (a : Nat) : MeasuredPeak :=
  { timestamp := be64At buf a, peakHeight := be32At buf (a + 8)
    speed := be16At buf (a + 12), cycle := be32At buf (a + 14) }

/-- `n` consecutive `PEAK18` records from offset `a` on (R57). -/
def peaks18At (buf : Buffer) : Nat → Nat → List MeasuredPeak
  | _, 0 => []
  | a, n + 1 => peak18At buf a :: peaks18At buf (a + Config.peakLen) n

/-- The 40 bytes of `CFG40` (R54, R102). -/
def cfg40Bytes (c : FilterConfig) : Buffer :=
  beEnc64 c.pthresh ++ beEnc64 c.tdead ++ beEnc64 c.k ++ beEnc64 c.l ++ beEnc64 c.m

/-- A `CFG40` record at offset `a` (R54, R103). -/
def cfg40At (buf : Buffer) (a : Nat) : FilterConfig :=
  { pthresh := be64At buf a, tdead := be64At buf (a + 8), k := be64At buf (a + 16)
    l := be64At buf (a + 24), m := be64At buf (a + 32) }

/-- The byte of `STAT1` (R55, R104). -/
def statByte : Status → Byte
  | .start => 0x00
  | .stop => 0x01

/-- The status a `STAT1` byte stands for; the whole byte is compared (R55, R63). -/
def statOfByte (x : Byte) : Option Status :=
  if x = 0x00 then some .start else if x = 0x01 then some .stop else none

/-! ### Message envelope (R56 to R59) -/

/-- The tag byte of `Data` (R56). -/
def tagData : Byte := 0x00

/-- The tag byte of `Status` (R56). -/
def tagStatus : Byte := 0x01

/-- The tag byte of `Config` (R56). -/
def tagConfig : Byte := 0x02

/-- The bytes of a message (R57, R58, R59, R121 to R123). -/
def msgBytes : Message → Buffer
  | .data peaks => tagData :: (beEnc64 (BitVec.ofNat 64 peaks.length) ++ peaks.flatMap peak18Bytes)
  | .status s => [tagStatus, statByte s]
  | .config c => tagConfig :: cfg40Bytes c

/-- The length of a message's encoding (R131). -/
def msgLen : Message → Nat
  | .data peaks => Config.dataHdrLen + Config.peakLen * peaks.length
  | .status _ => Config.msgStatusLen
  | .config _ => Config.msgConfigLen

/-! ### The sensor-native record -/

/-- The four expressions of R91 on the bytes of `buf` from offset 0, each zero-extended to its in-record width. They are
four independent expressions of the unchanged input, so their order cannot matter (R95). No mask to 24 bits is applied to
the height (90_conflicts.md C1; log 11). -/
def packed12Peak (buf : Buffer) : MeasuredPeak :=
  { timestamp :=
      (byteAt buf 0).setWidth 64 ||| ((byteAt buf 1).setWidth 64 <<< 8) ||| ((byteAt buf 2).setWidth 64 <<< 16)
        ||| ((byteAt buf 3).setWidth 64 <<< 24) ||| ((byteAt buf 4).setWidth 64 <<< 32)
    peakHeight :=
      (byteAt buf 8 >>> 4).setWidth 32 ||| ((byteAt buf 9).setWidth 32 <<< 4)
        ||| ((byteAt buf 10).setWidth 32 <<< 12) ||| ((byteAt buf 11).setWidth 32 <<< 20)
    speed := (byteAt buf 7 >>> 2).setWidth 16 ||| ((byteAt buf 8 &&& 0x0F).setWidth 16 <<< 6)
    cycle :=
      (byteAt buf 5).setWidth 32 ||| ((byteAt buf 6).setWidth 32 <<< 8)
        ||| ((byteAt buf 7 &&& 0x03).setWidth 32 <<< 16) }

/-- The 12 bytes read as one 96-bit little-endian number (R52, the single-word view). -/
def packedWord (buf : Buffer) : BitVec 96 :=
  (List.range 12).foldl (fun w i => w ||| ((byteAt buf i).setWidth 96 <<< (8 * i))) 0

/-- `read(O, N)` of R96: the `n` bits of the packed record from bit offset `o` on. -/
def packedRead (buf : Buffer) (o n : Nat) : BitVec n := (packedWord buf).extractLsb' o n

/-- The 12 bytes that hold four fields at the offsets of R52: 0, 40, 58, 68. It writes a `PACKED12` string down for the
encoder; the block has no such operation (R97). -/
def packed12Bytes (t : BitVec 40) (c : BitVec 18) (s : BitVec 10) (h : BitVec 28) : Buffer :=
  let w : BitVec 96 := t.setWidth 96 ||| (c.setWidth 96 <<< 40) ||| (s.setWidth 96 <<< 58) ||| (h.setWidth 96 <<< 68)
  (List.range 12).map fun i => w.extractLsb' (8 * i) 8

/-- The record four sensor-native fields stand for, each zero-extended to its in-record width (R18, R61). -/
def packedRecord (t : BitVec 40) (c : BitVec 18) (s : BitVec 10) (h : BitVec 28) : MeasuredPeak :=
  { timestamp := t.setWidth 64, peakHeight := h.setWidth 32, speed := s.setWidth 16, cycle := c.setWidth 32 }

/-- The fields of the packed record. -/
inductive PackedField where
  | timestamp
  | cycle
  | speed
  | peakHeight
  deriving DecidableEq, Repr

/-- A row of the second table of R52: a field's piece, where it stands and where it lands. -/
structure PackedPiece where
  field    : PackedField
  byte     : Nat
  firstBit : Nat
  width    : Nat
  landsAt  : Nat
  deriving DecidableEq, Repr

/-- The second table of R52, the layout U1 treats as a parameter with one admitted value (log 11). -/
def packedLayout : List PackedPiece :=
  [⟨.timestamp, 0, 0, 8, 0⟩, ⟨.timestamp, 1, 0, 8, 8⟩, ⟨.timestamp, 2, 0, 8, 16⟩, ⟨.timestamp, 3, 0, 8, 24⟩,
   ⟨.timestamp, 4, 0, 8, 32⟩, ⟨.cycle, 5, 0, 8, 0⟩, ⟨.cycle, 6, 0, 8, 8⟩, ⟨.cycle, 7, 0, 2, 16⟩,
   ⟨.speed, 7, 2, 6, 0⟩, ⟨.speed, 8, 0, 4, 6⟩, ⟨.peakHeight, 8, 4, 4, 0⟩, ⟨.peakHeight, 9, 0, 8, 4⟩,
   ⟨.peakHeight, 10, 0, 8, 12⟩, ⟨.peakHeight, 11, 0, 8, 20⟩]

/-- One piece of R61: `((in[byte] >> first_bit) & (2^width - 1)) << lands_at`. -/
def packedPieceValue (buf : Buffer) (p : PackedPiece) : Nat :=
  (((byteAt buf p.byte).toNat >>> p.firstBit) &&& (2 ^ p.width - 1)) <<< p.landsAt

/-- Packed assembly by the table: the OR of a field's pieces (R61). -/
def packedAssemble (buf : Buffer) (f : PackedField) : Nat :=
  (packedLayout.filter (fun p => p.field = f)).foldl (fun v p => v ||| packedPieceValue buf p) 0

end Sys2Proof.Machine
end

