-- ==== Sys2Proof/Decode.lean ====
section
/-!
DEFINITION. From a presented transaction to an instruction, total, rejecting by name what cannot be presented; then the
encoder. A request is decoded by its 4-bit `op` (30_encoding.md R70, R71); a wire string by its format (R50 to R59).
-/

namespace Sys2Proof

open Machine

/-- Why a presented transaction is no instruction. Both cases are requests the spec says cannot be presented; stopping on
them is safe. -/
inductive DecodeError where
  /-- DEC16, DEC32 or DEC64 with an input of another size than its type gives it (R83, D15). -/
  | operandLength (need got : Nat)
  /-- MSG_SER of a `Message::Data` above MAXPEAKS (R121, D16, U12). -/
  | dataTooLong (peaks : Nat)
  deriving DecidableEq, Repr

/-! ### Decoding -/

/-- The operand of DEC16: exactly 2 bytes (R83). -/
def decodeDec16 : Buffer → Except DecodeError Instr
  | [b0, b1] => .ok (.dec16 b0 b1)
  | input => .error (.operandLength 2 input.length)

/-- The operand of DEC32: exactly 4 bytes (R84). -/
def decodeDec32 : Buffer → Except DecodeError Instr
  | [b0, b1, b2, b3] => .ok (.dec32 b0 b1 b2 b3)
  | input => .error (.operandLength 4 input.length)

/-- The operand of DEC64: exactly 8 bytes (R85). -/
def decodeDec64 : Buffer → Except DecodeError Instr
  | [b0, b1, b2, b3, b4, b5, b6, b7] => .ok (.dec64 b0 b1 b2 b3 b4 b5 b6 b7)
  | input => .error (.operandLength 8 input.length)

/-- The operand of MSG_SER: a message within MAXPEAKS (R121, D16). -/
def decodeMsgSer (msg : Message) : Except DecodeError Instr :=
  match msg with
  | .data peaks =>
    if peaks.length ≤ Config.maxPeaks then .ok (.msgSer (.data peaks)) else .error (.dataTooLong peaks.length)
  | .status s => .ok (.msgSer (.status s))
  | .config c => .ok (.msgSer (.config c))

/-- The operation table of R70 and the value 0xF of R71. Fields an operation does not use are ignored (R11). -/
def decodeRequest (r : Request) : Except DecodeError Instr :=
  match r.op.toNat with
  | 0x0 => .ok (.enc16 (r.val.setWidth 16))
  | 0x1 => .ok (.enc32 (r.val.setWidth 32))
  | 0x2 => .ok (.enc64 r.val)
  | 0x3 => decodeDec16 r.input
  | 0x4 => decodeDec32 r.input
  | 0x5 => decodeDec64 r.input
  | 0x6 => .ok (.unpackPeak r.input)
  | 0x7 => .ok (.peakSer r.peak)
  | 0x8 => .ok (.peakDes r.input)
  | 0x9 => .ok (.cfgSer r.cfg)
  | 0xA => .ok (.cfgDes r.input)
  | 0xB => .ok (.statSer r.stat)
  | 0xC => .ok (.statDes r.input)
  | 0xD => decodeMsgSer r.msg
  | 0xE => .ok (.msgDes r.input)
  | _ => .ok .opFRefused

/-- A request with every operand zero, `Start` and the empty `Data` message: the fields an operation does not use. -/
def Request.blank : Request :=
  { op := 0, input := [], val := 0, peak := ⟨0, 0, 0, 0⟩, cfg := ⟨0, 0, 0, 0, 0⟩, stat := .start, msg := .data [] }

/-- The `op` of the operation that reads a format (R70; opcode_table.json, "read by"). -/
def WireFormat.reader : WireFormat → BitVec 4
  | .be16 => 0x3
  | .be32 => 0x4
  | .be64 => 0x5
  | .packed12 => 0x6
  | .peak18 => 0x8
  | .cfg40 => 0xA
  | .stat1 => 0xC
  | .msg => 0xE

/-- The request that hands a buffer to the operation that reads the format. -/
def Request.reading (f : WireFormat) (bytes : Buffer) : Request := { Request.blank with op := f.reader, input := bytes }

/-- The first string of the message envelope in a buffer: empty and truncated buffers hold none (R56 to R59, R62). -/
def parseMsg (bytes : Buffer) : Option Instr :=
  match bytes with
  | [] => none
  | tag :: rest =>
    if tag = tagData then
      if bytes.length < Config.dataHdrLen then none
      else if bytes.length - Config.dataHdrLen < (be64At bytes 1).toNat * Config.peakLen then none
      else some (.msgData (peaks18At bytes Config.dataHdrLen (be64At bytes 1).toNat))
    else if tag = tagStatus then rest.head?.map .msgStatus
    else if tag = tagConfig then
      if bytes.length < Config.msgConfigLen then none else some (.msgConfig (cfg40At bytes 1))
    else some (.msgInvalidTag tag)

/-- The string of a format that a buffer begins with, if it holds a whole one (R50). The primitive and the packed formats
take the buffer whole; the others leave trailing bytes alone (R67). -/
def parseWire (f : WireFormat) (bytes : Buffer) : Option Instr :=
  match f with
  | .be16 => if bytes.length = 2 then some (.be16 (be16At bytes 0)) else none
  | .be32 => if bytes.length = 4 then some (.be32 (be32At bytes 0)) else none
  | .be64 => if bytes.length = 8 then some (.be64 (be64At bytes 0)) else none
  | .packed12 =>
    if bytes.length = Config.packedLen then
      some (.packed12 (packedRead bytes 0 40) (packedRead bytes 40 18) (packedRead bytes 58 10) (packedRead bytes 68 28))
    else none
  | .peak18 => if bytes.length < Config.peakLen then none else some (.peak18 (peak18At bytes 0))
  | .cfg40 => if bytes.length < Config.cfgLen then none else some (.cfg40 (cfg40At bytes 0))
  | .stat1 =>
    match bytes with
    | [] => none
    | x :: _ => if x = 0x00 then some .statStart else if x = 0x01 then some .statStop else some (.statInvalid x)
  | .msg => parseMsg bytes

/-- The instruction a presented transaction is. A buffer that holds no whole string of its format is the reading
operation's own transaction on those bytes, so that its shortfall or fault is reported (log 8). -/
def decode : Presented → Except DecodeError Instr
  | .request r => decodeRequest r
  | .wire f bytes =>
    match parseWire f bytes with
    | some i => .ok i
    | none => decodeRequest (Request.reading f bytes)

/-! ### Encoding -/

/-- The transaction that stands for an instruction: its `op` and operand for the rows of R70 and R71, its bytes for the
rows of the wire formats. -/
def encode : Instr → Presented
  | .enc16 v => .request { Request.blank with op := 0x0, val := v.setWidth 64 }
  | .enc32 v => .request { Request.blank with op := 0x1, val := v.setWidth 64 }
  | .enc64 v => .request { Request.blank with op := 0x2, val := v }
  | .dec16 b0 b1 => .request { Request.blank with op := 0x3, input := [b0, b1] }
  | .dec32 b0 b1 b2 b3 => .request { Request.blank with op := 0x4, input := [b0, b1, b2, b3] }
  | .dec64 b0 b1 b2 b3 b4 b5 b6 b7 =>
    .request { Request.blank with op := 0x5, input := [b0, b1, b2, b3, b4, b5, b6, b7] }
  | .unpackPeak input => .request { Request.blank with op := 0x6, input := input }
  | .peakSer p => .request { Request.blank with op := 0x7, peak := p }
  | .peakDes input => .request { Request.blank with op := 0x8, input := input }
  | .cfgSer c => .request { Request.blank with op := 0x9, cfg := c }
  | .cfgDes input => .request { Request.blank with op := 0xA, input := input }
  | .statSer s => .request { Request.blank with op := 0xB, stat := s }
  | .statDes input => .request { Request.blank with op := 0xC, input := input }
  | .msgSer m => .request { Request.blank with op := 0xD, msg := m }
  | .msgDes input => .request { Request.blank with op := 0xE, input := input }
  | .opFRefused => .request { Request.blank with op := 0xF }
  | .be16 v => .wire .be16 (beEnc16 v)
  | .be32 v => .wire .be32 (beEnc32 v)
  | .be64 v => .wire .be64 (beEnc64 v)
  | .packed12 t c s h => .wire .packed12 (packed12Bytes t c s h)
  | .peak18 p => .wire .peak18 (peak18Bytes p)
  | .cfg40 c => .wire .cfg40 (cfg40Bytes c)
  | .statStart => .wire .stat1 [0x00]
  | .statStop => .wire .stat1 [0x01]
  | .statInvalid x => .wire .stat1 [x]
  | .msgData peaks => .wire .msg (msgBytes (.data peaks))
  | .msgStatus s => .wire .msg [tagStatus, s]
  | .msgConfig c => .wire .msg (msgBytes (.config c))
  | .msgInvalidTag x => .wire .msg [x]

/-! ### Words of the opcode table -/

/-- The low `n` bytes of a number, the least significant first: the table numbers bit 0 as the lowest bit of the first
byte. -/
def bytesOfWord (n w : Nat) : Buffer := (List.range n).map fun i => BitVec.ofNat 8 (w >>> (8 * i))

/-- The size of the zero input a table word of an operation is given: the length of the format the operation reads, and a
`Data` message without peaks for MSG_DES (log 15). -/
def zeroInputLen (op : BitVec 4) : Nat :=
  match op.toNat with
  | 0x3 => 2
  | 0x4 => 4
  | 0x5 => 8
  | 0x6 => Config.packedLen
  | 0x8 => Config.peakLen
  | 0xA => Config.cfgLen
  | 0xC => Config.statLen
  | 0xE => Config.dataHdrLen
  | _ => 0

/-- The wire format of a table row of `nbits` bits above one byte. Sixteen bits with the tag 0x01 are `MSG_STATUS`, any other
sixteen bits `BE16`; 72 + 144 N bits are `MSG_DATA` (log 15). -/
def tableFormat (nbits w : Nat) : Option WireFormat :=
  match nbits with
  | 16 => if w % 256 = 1 then some .msg else some .be16
  | 32 => some .be32
  | 64 => some .be64
  | 96 => some .packed12
  | 144 => some .peak18
  | 320 => some .cfg40
  | 328 => some .msg
  | n => if 72 ≤ n ∧ (n - 72) % 144 = 0 then some .msg else none

/-- The transaction a word of the opcode table stands for. The formats carry no mark that tells them apart (R19, R166), so
rows of one size are told apart by their values where the table allows it; a word of at most 8 bits below 16 is an `op`, its
operand zero, and any other word of 8 bits is a status byte (log 15). -/
def presentedOfWord (nbits w : Nat) : Option Presented :=
  if nbits ≤ 8 then
    if w < 16 then
      some (.request { Request.blank with
        op := BitVec.ofNat 4 w, input := List.replicate (zeroInputLen (BitVec.ofNat 4 w)) 0 })
    else if w < 256 then some (.wire .stat1 [BitVec.ofNat 8 w])
    else none
  else (tableFormat nbits w).map fun f => .wire f (bytesOfWord (nbits / 8) w)

/-- The instruction the decoder reads from a word of the opcode table. -/
def decodeTableWord (nbits w : Nat) : Option Instr :=
  match presentedOfWord nbits w with
  | none => none
  | some p =>
    match decode p with
    | .ok i => some i
    | .error _ => none

end Sys2Proof
end

