-- ==== Sys2Proof/Machine/State.lean ====
section
/-!
DEFINITION. The state of the machine. The block itself holds nothing between transactions (10_state.md R10); what the spec
names is the request record (R11) and the response record (R12), and State holds these, plus the model's own record that a
run has gone wrong (60_exceptions.md R150).
-/

namespace Sys2Proof.Machine

/-- The result of a successful operation. Each constructor holds exactly the response fields R12 and R13 call valid for the
operations that answer with it. -/
inductive Result where
  /-- `out`: ENC16, ENC32, ENC64, PEAK_SER, CFG_SER, STAT_SER, MSG_SER. -/
  | out (bytes : Buffer)
  /-- `rval`, 16 bits: DEC16. -/
  | val16 (v : BitVec 16)
  /-- `rval`, 32 bits: DEC32. -/
  | val32 (v : BitVec 32)
  /-- `rval`, 64 bits: DEC64. -/
  | val64 (v : BitVec 64)
  /-- `rpeak` alone: UNPACK_PEAK has no `consumed` (R90). -/
  | unpacked (p : MeasuredPeak)
  /-- `rpeak` and `consumed`: PEAK_DES. -/
  | peak (p : MeasuredPeak) (consumed : Nat)
  /-- `rcfg` and `consumed`: CFG_DES. -/
  | cfg (c : FilterConfig) (consumed : Nat)
  /-- `rstat` and `consumed`: STAT_DES. -/
  | stat (s : Status) (consumed : Nat)
  /-- `rmsg` and `consumed`: MSG_DES. -/
  | msg (m : Message) (consumed : Nat)
  deriving DecidableEq, Repr

/-- The three abnormal outcomes of R140. -/
inductive Abnormal where
  /-- `BTS`: at least `missing` more bytes are needed (R141). -/
  | bufferTooShort (missing : Nat)
  /-- `INV`: a tag or status byte out of range; no payload (R142, C2). -/
  | invalidDiscriminant
  /-- `FLT`: UNPACK_PEAK with another length than 12; no payload (R143). -/
  | invalidInputLength
  deriving DecidableEq, Repr

/-- A response: the sum type of R13, so that a field that is not valid cannot be read (log 3). -/
inductive Response where
  | ok (r : Result)
  | raised (x : Abnormal)
  deriving DecidableEq, Repr

/-- The reasons a run is faulty. -/
inductive Fault where
  /-- UNPACK_PEAK was handed another length than 12 (R93, R143). Raised by UNPACK_PEAK and recorded in `State.runFault`; the
  block answers `FLT` and goes on (R147, R150), so no step ends in it. Safe: the outcome is the spec's, and a claim about a
  run takes `runFault = none` as a premise or proves it (log 4). -/
  | invalidInputLength
  deriving DecidableEq, Repr

/-- Why a step gives no meaning. -/
inductive Refusal where
  /-- An arm of exec without a meaning yet. No arm answers it now. Safe. -/
  | notModelled (mnemonic : String)
  /-- Raised by OP_F_REFUSED: "a model gives it no step" (R71, U10). Safe: the model stops. -/
  | noOperation
  /-- Raised by the step on a DEC16, DEC32 or DEC64 request whose input has another size than its type gives it; such a
  request cannot be written down (R83, D15). Safe: the model stops. -/
  | operandLength (need got : Nat)
  /-- Raised by the step, by MSG_SER and by MSG_DATA on more peaks than MAXPEAKS; such a message cannot be presented (R121,
  D16, U12). Safe: the model stops. -/
  | dataTooLong (peaks : Nat)
  deriving DecidableEq, Repr

/-- The machine's state. -/
structure State where
  /-- The transactions the caller has issued and the block has not taken yet, oldest first (R11, R40; log 1). -/
  pending : List Presented
  /-- The response of the last transaction, none before the first (R12, R25; log 3). -/
  response : Option Response
  /-- The MODEL's own record that a `FLT` occurred in this run (R150); no operation reads it (log 4). -/
  runFault : Option Fault
  deriving DecidableEq, Repr

/-- Right after reset: no transaction presented, no response yet, no fault in the run (R25, R160, R161; log 1, 3, 4). -/
def State.reset : State := { pending := [], response := none, runFault := none }

end Sys2Proof.Machine
end

