-- ==== Sys2Proof/Machine/Ops.lean ====
section
/-!
DEFINITION. The named operations over the state: issuing and taking a transaction, completing it, raising an abnormal
outcome, and the two resets. Raising is the one place where an exception is entered (60_exceptions.md R146). There is no return from one: the
caller retries with a new transaction (R148, R149).
-/

namespace Sys2Proof.Machine

/-- The caller's move: issue a transaction, to be taken after those already waiting, as transactions take effect in the order
issued (R40). -/
def State.present (p : Presented) (s : State) : State := { s with pending := s.pending ++ [p] }

/-- A transaction placed where the next step takes it. It is no move of the caller: it serves `State.withFetchWord` alone
(log 15). -/
def State.placeNext (p : Presented) (s : State) : State := { s with pending := p :: s.pending }

/-- The next transaction to take, and the state without it (R40). -/
def State.take? (s : State) : Option (Presented × State) :=
  match s.pending with
  | [] => none
  | p :: rest => some (p, { s with pending := rest })

/-- Successful completion: the response is `Ok` with the operation's result (R12, R13). -/
def State.complete (r : Result) (s : State) : State := { s with response := some (.ok r) }

/-- The record of a run's fault after an abnormal outcome: `InvalidInputLength` marks the run as faulty (R150). -/
def runFaultAfter (x : Abnormal) (before : Option Fault) : Option Fault :=
  match x with
  | .bufferTooShort _ => before
  | .invalidDiscriminant => before
  | .invalidInputLength => some .invalidInputLength

/-- `raise X`: the response carries the status (and `missing` for `BufferTooShort`); no other field is valid, nothing is
saved, no mode changes and control goes to no handler (R146, R147). -/
def State.raise (x : Abnormal) (s : State) : State :=
  { s with response := some (.raised x), runFault := runFaultAfter x s.runFault }

/-- A deserializer's error as an outcome (R23, R140). -/
def abnormalOf : DeserializeError → Abnormal
  | .bufferTooShort n => .bufferTooShort n
  | .invalidDiscriminant => .invalidDiscriminant

/-- A deserializer's response: its value and consumed count, or its error. -/
def State.answer {α : Type} (wrap : α → Nat → Result) (d : Decoded α) (s : State) : State :=
  match d with
  | .ok v c => s.complete (wrap v c)
  | .raised e => s.raise (abnormalOf e)

/-- What the machine answers to a transaction that cannot be presented. -/
def refusalOf : DecodeError → Refusal
  | .operandLength need got => .operandLength need got
  | .dataTooLong n => .dataTooLong n

/-- A reset between two transactions has no architectural effect (R160); the response fields are again not to be read until
the next transaction completes (R25). -/
def State.resetBlock (s : State) : State := { s with response := none }

/-- A reset that cuts short the transaction in progress, the oldest one: it produces no response and is gone, so that the caller
must issue it again (R161; log 24). With nothing in progress it is `State.resetBlock`. -/
def State.resetDuring (s : State) : State := { s with pending := s.pending.tail, response := none }

end Sys2Proof.Machine
end

