-- ==== Sys2Proof/Machine/Records.lean ====
section
/-!
DEFINITION. The canonical record codecs (42_canonical_records.md): PEAK_SER, PEAK_DES, CFG_SER, CFG_DES, STAT_SER, STAT_DES.
-/

namespace Sys2Proof.Machine

/-- The contract every fixed-length decode shares: the length test first, then the record and `consumed = required` (R106). -/
def desFixed {α : Type} (required : Nat) (record : Buffer → α) (input : Buffer) : Decoded α :=
  if input.length < required then .raised (.bufferTooShort (required - input.length))
  else .ok (record input) required

/-- The decode of PEAK_DES (R101). -/
def peakDes (input : Buffer) : Decoded MeasuredPeak := desFixed Config.peakLen (fun b => peak18At b 0) input

/-- The decode of CFG_DES (R103). -/
def cfgDes (input : Buffer) : Decoded FilterConfig := desFixed Config.cfgLen (fun b => cfg40At b 0) input

/-- The value check of a status byte, with the count of bytes consumed when it passes (R105, R126). -/
def statDecoded (x : Byte) (consumed : Nat) : Decoded Status :=
  match statOfByte x with
  | some st => .ok st consumed
  | none => .raised .invalidDiscriminant

/-- The decode of STAT_DES: the length test, then the value of byte 0 (R105). -/
def statDes : Buffer → Decoded Status
  | [] => .raised (.bufferTooShort 1)
  | x :: _ => statDecoded x Config.statLen

/-- PEAK_SER (R100). -/
def execPeakSer (p : MeasuredPeak) (s : State) : Host.Outcome State Fault Refusal :=
  .next (s.complete (.out (peak18Bytes p)))

/-- PEAK_DES (R101). -/
def execPeakDes (input : Buffer) (s : State) : Host.Outcome State Fault Refusal :=
  .next (s.answer .peak (peakDes input))

/-- CFG_SER (R102). -/
def execCfgSer (c : FilterConfig) (s : State) : Host.Outcome State Fault Refusal :=
  .next (s.complete (.out (cfg40Bytes c)))

/-- CFG_DES (R103). -/
def execCfgDes (input : Buffer) (s : State) : Host.Outcome State Fault Refusal :=
  .next (s.answer .cfg (cfgDes input))

/-- STAT_SER (R104). -/
def execStatSer (st : Status) (s : State) : Host.Outcome State Fault Refusal :=
  .next (s.complete (.out [statByte st]))

/-- STAT_DES (R105). -/
def execStatDes (input : Buffer) (s : State) : Host.Outcome State Fault Refusal :=
  .next (s.answer .stat (statDes input))

end Sys2Proof.Machine
end

