-- ==== Sys2Proof/Machine/Envelope.lean ====
section
/-!
DEFINITION. The message envelope (43_message_envelope.md): MSG_SER and MSG_DES.
-/

namespace Sys2Proof.Machine

/-- `MSG_DES`, tag `Data` (R125): the header test, then the payload test with `N * 18` computed exactly (R66, R135), then all
`N` peaks or nothing (R130). -/
def dataDes (input : Buffer) : Decoded Message :=
  if input.length < Config.dataHdrLen then .raised (.bufferTooShort (Config.dataHdrLen - input.length))
  else
    let n := (be64At input 1).toNat
    let available := input.length - Config.dataHdrLen
    let need := n * Config.peakLen
    if available < need then .raised (.bufferTooShort (need - available))
    else .ok (.data (peaks18At input Config.dataHdrLen n)) (Config.dataHdrLen + Config.peakLen * n)

/-- `MSG_DES`, tag `Status` (R126): the length test, then the status byte. -/
def statusDes (input : Buffer) : Decoded Message :=
  if input.length < Config.msgStatusLen then .raised (.bufferTooShort (Config.msgStatusLen - input.length))
  else
    match statDecoded (byteAt input 1) Config.msgStatusLen with
    | .ok st c => .ok (.status st) c
    | .raised e => .raised e

/-- `MSG_DES`, tag `Config` (R127). -/
def configDes (input : Buffer) : Decoded Message :=
  desFixed Config.msgConfigLen (fun b => .config (cfg40At b 1)) input

/-- The decode of MSG_DES (R124): empty buffer, then the tag, then the variant's own tests (R145). -/
def msgDes (input : Buffer) : Decoded Message :=
  match input with
  | [] => .raised (.bufferTooShort 1)
  | tag :: _ =>
    if tag = tagData then dataDes input
    else if tag = tagStatus then statusDes input
    else if tag = tagConfig then configDes input
    else .raised .invalidDiscriminant

/-- MSG_SER (R120 to R123). A `Data` message above MAXPEAKS cannot be presented (D16). -/
def execMsgSer (m : Message) (s : State) : Host.Outcome State Fault Refusal :=
  match m with
  | .data peaks =>
    if peaks.length ≤ Config.maxPeaks then .next (s.complete (.out (msgBytes (.data peaks))))
    else .refused (.dataTooLong peaks.length)
  | .status st => .next (s.complete (.out (msgBytes (.status st))))
  | .config c => .next (s.complete (.out (msgBytes (.config c))))

/-- MSG_DES (R124 to R128). -/
def execMsgDes (input : Buffer) (s : State) : Host.Outcome State Fault Refusal :=
  .next (s.answer .msg (msgDes input))

end Sys2Proof.Machine
end

