-- ==== Sys2Proof/Machine/Primitive.lean ====
section
/-!
DEFINITION. The primitive field codec (40_primitive_codec.md): ENC16, ENC32, ENC64, DEC16, DEC32, DEC64. None of them can
raise anything.
-/

namespace Sys2Proof.Machine

/-- ENC16 (R80). -/
def execEnc16 (v : BitVec 16) (s : State) : Host.Outcome State Fault Refusal := .next (s.complete (.out (beEnc .w16 v)))

/-- ENC32 (R81). -/
def execEnc32 (v : BitVec 32) (s : State) : Host.Outcome State Fault Refusal := .next (s.complete (.out (beEnc .w32 v)))

/-- ENC64 (R82). -/
def execEnc64 (v : BitVec 64) (s : State) : Host.Outcome State Fault Refusal := .next (s.complete (.out (beEnc .w64 v)))

/-- DEC16 (R83). -/
def execDec16 (b0 b1 : Byte) (s : State) : Host.Outcome State Fault Refusal :=
  .next (s.complete (.val16 (beDec .w16 [b0, b1])))

/-- DEC32 (R84). -/
def execDec32 (b0 b1 b2 b3 : Byte) (s : State) : Host.Outcome State Fault Refusal :=
  .next (s.complete (.val32 (beDec .w32 [b0, b1, b2, b3])))

/-- DEC64 (R85). -/
def execDec64 (b0 b1 b2 b3 b4 b5 b6 b7 : Byte) (s : State) : Host.Outcome State Fault Refusal :=
  .next (s.complete (.val64 (beDec .w64 [b0, b1, b2, b3, b4, b5, b6, b7])))

end Sys2Proof.Machine
end

