-- ==== Sys2Proof/Machine/Unassigned.lean ====
section
/-!
DEFINITION. The op value that names no operation (30_encoding.md R71).
-/

namespace Sys2Proof.Machine

/-- OP_F_REFUSED: "a request with `op = 0xF` is refused: the block gives it no meaning and a model gives it no step" (R71). -/
def execOpFRefused (_ : State) : Host.Outcome State Fault Refusal := .refused .noOperation

end Sys2Proof.Machine
end

