-- ==== Sys2Proof/Machine/Unpack.lean ====
section
/-!
DEFINITION. The bit-packed peak decoder (41_packed_peak_decoder.md): UNPACK_PEAK.
-/

namespace Sys2Proof.Machine

/-- UNPACK_PEAK (R90, R91, R93): the length test comes before any byte is examined; on 12 bytes it always succeeds (R94). -/
def execUnpackPeak (input : Buffer) (s : State) : Host.Outcome State Fault Refusal :=
  if input.length = Config.packedLen then .next (s.complete (.unpacked (packed12Peak input)))
  else .next (s.raise .invalidInputLength)

end Sys2Proof.Machine
end

