-- ==== Sys2Proof/Machine/Wire.lean ====
section
/-!
DEFINITION. The rows of the wire formats (30_encoding.md R50 to R63): what the operation that reads the format answers on a
string of it. The spec gives a format no operation of its own (log 8).
-/

namespace Sys2Proof.Machine

/-- BE16, read by DEC16 (R51, R83). -/
def execBe16 (v : BitVec 16) (s : State) : Host.Outcome State Fault Refusal := .next (s.complete (.val16 v))

/-- BE32, read by DEC32 (R51, R84). -/
def execBe32 (v : BitVec 32) (s : State) : Host.Outcome State Fault Refusal := .next (s.complete (.val32 v))

/-- BE64, read by DEC64 (R51, R85). -/
def execBe64 (v : BitVec 64) (s : State) : Host.Outcome State Fault Refusal := .next (s.complete (.val64 v))

/-- PACKED12, read by UNPACK_PEAK (R52, R91): the four fields zero-extended. -/
def execPacked12 (t : BitVec 40) (c : BitVec 18) (sp : BitVec 10) (h : BitVec 28) (s : State) :
    Host.Outcome State Fault Refusal :=
  .next (s.complete (.unpacked (packedRecord t c sp h)))

/-- PEAK18, read by PEAK_DES (R53, R101). -/
def execPeak18 (p : MeasuredPeak) (s : State) : Host.Outcome State Fault Refusal :=
  .next (s.complete (.peak p Config.peakLen))

/-- CFG40, read by CFG_DES (R54, R103). -/
def execCfg40 (c : FilterConfig) (s : State) : Host.Outcome State Fault Refusal :=
  .next (s.complete (.cfg c Config.cfgLen))

/-- STAT_START, read by STAT_DES (R55, R105). -/
def execStatStart (s : State) : Host.Outcome State Fault Refusal := .next (s.complete (.stat .start Config.statLen))

/-- STAT_STOP, read by STAT_DES (R55, R105). -/
def execStatStop (s : State) : Host.Outcome State Fault Refusal := .next (s.complete (.stat .stop Config.statLen))

/-- STAT_INVALID, read by STAT_DES: the value check of the whole byte (R63, R105). -/
def execStatInvalid (x : Byte) (s : State) : Host.Outcome State Fault Refusal :=
  .next (s.answer .stat (statDecoded x Config.statLen))

/-- MSG_DATA, read by MSG_DES (R57, R125). A count of 2^64 peaks or more has no such string. -/
def execMsgData (peaks : List MeasuredPeak) (s : State) : Host.Outcome State Fault Refusal :=
  if peaks.length < 2 ^ 64 then .next (s.complete (.msg (.data peaks) (msgLen (.data peaks))))
  else .refused (.dataTooLong peaks.length)

/-- MSG_STATUS, read by MSG_DES: the value check of the byte at offset 1 (R58, R126). -/
def execMsgStatus (x : Byte) (s : State) : Host.Outcome State Fault Refusal :=
  .next (s.answer (fun st c => .msg (.status st) c) (statDecoded x Config.msgStatusLen))

/-- MSG_CONFIG, read by MSG_DES (R59, R127). -/
def execMsgConfig (c : FilterConfig) (s : State) : Host.Outcome State Fault Refusal :=
  .next (s.complete (.msg (.config c) (msgLen (.config c))))

/-- MSG_INVALID_TAG, read by MSG_DES: what a buffer of that one byte is answered; trailing bytes do not matter (R62, R128). -/
def execMsgInvalidTag (x : Byte) (s : State) : Host.Outcome State Fault Refusal :=
  .next (s.answer .msg (msgDes [x]))

end Sys2Proof.Machine
end

