-- ==== Sys2Proof/Machine/Dispatch.lean ====
section
/-!
DEFINITION. One arm per constructor of Instr, each one direct call of its meaning.
-/

namespace Sys2Proof.Machine

def exec (i : Instr) (s : State) : Host.Outcome State Fault Refusal :=
  match i with
  | .enc16 val => Sys2Proof.Machine.execEnc16 val s
  | .enc32 val => Sys2Proof.Machine.execEnc32 val s
  | .enc64 val => Sys2Proof.Machine.execEnc64 val s
  | .dec16 b0 b1 => Sys2Proof.Machine.execDec16 b0 b1 s
  | .dec32 b0 b1 b2 b3 => Sys2Proof.Machine.execDec32 b0 b1 b2 b3 s
  | .dec64 b0 b1 b2 b3 b4 b5 b6 b7 => Sys2Proof.Machine.execDec64 b0 b1 b2 b3 b4 b5 b6 b7 s
  | .unpackPeak input => Sys2Proof.Machine.execUnpackPeak input s
  | .peakSer peak => Sys2Proof.Machine.execPeakSer peak s
  | .peakDes input => Sys2Proof.Machine.execPeakDes input s
  | .cfgSer cfg => Sys2Proof.Machine.execCfgSer cfg s
  | .cfgDes input => Sys2Proof.Machine.execCfgDes input s
  | .statSer stat => Sys2Proof.Machine.execStatSer stat s
  | .statDes input => Sys2Proof.Machine.execStatDes input s
  | .msgSer msg => Sys2Proof.Machine.execMsgSer msg s
  | .msgDes input => Sys2Proof.Machine.execMsgDes input s
  | .opFRefused => Sys2Proof.Machine.execOpFRefused s
  | .be16 v => Sys2Proof.Machine.execBe16 v s
  | .be32 v => Sys2Proof.Machine.execBe32 v s
  | .be64 v => Sys2Proof.Machine.execBe64 v s
  | .packed12 t c sp h => Sys2Proof.Machine.execPacked12 t c sp h s
  | .peak18 peak => Sys2Proof.Machine.execPeak18 peak s
  | .cfg40 cfg => Sys2Proof.Machine.execCfg40 cfg s
  | .statStart => Sys2Proof.Machine.execStatStart s
  | .statStop => Sys2Proof.Machine.execStatStop s
  | .statInvalid x => Sys2Proof.Machine.execStatInvalid x s
  | .msgData peaks => Sys2Proof.Machine.execMsgData peaks s
  | .msgStatus x => Sys2Proof.Machine.execMsgStatus x s
  | .msgConfig cfg => Sys2Proof.Machine.execMsgConfig cfg s
  | .msgInvalidTag x => Sys2Proof.Machine.execMsgInvalidTag x s

end Sys2Proof.Machine
end

