-- ==== Sys2Proof/Machine/Step.lean ====
section
/-!
DEFINITION. One step: the block takes the oldest transaction the caller has issued and performs it whole (20_memory.md R38,
R40). With nothing issued nothing happens (log 2).
-/

namespace Sys2Proof.Machine

/-- One transaction, an atomic step that always ends (70_reset_and_hazards.md R172). -/
def step (s : State) : Host.Outcome State Fault Refusal :=
  match s.take? with
  | none => .next s
  | some (p, rest) =>
    match decode p with
    | .ok i => exec i rest
    | .error e => .refused (refusalOf e)

/-- The state with the transaction that a word of the opcode table stands for placed before all others, so that the next step
runs it (log 15). A word that stands for none is presented as the `op` that names no operation. -/
def State.withFetchWord (s : State) (nbits w : Nat) : State :=
  match presentedOfWord nbits w with
  | some p => s.placeNext p
  | none => s.placeNext (.request { Request.blank with op := 0xF })

end Sys2Proof.Machine
end

