-- ==== Sys2Proof/Machine/Caller.lean ====
section
/-!
DEFINITION. The caller's cursor law of 43_message_envelope.md R129 (R43, R148, R149), the one piece of caller behaviour the
spec gives step by step. It is no state of the block (R15); it is written down so that claims about several messages in one
buffer can be stated (log 19).
-/

namespace Sys2Proof.Machine

/-- Why the caller stops reading a buffer. -/
inductive StreamStop where
  /-- The cursor has reached the end of the buffer, or the buffer is empty (log 19). -/
  | finished
  /-- `BufferTooShort(n)`: keep the cursor and wait for at least `n` more bytes (R148). -/
  | waiting (n : Nat)
  /-- `InvalidDiscriminant`: resynchronise or abort (R149). -/
  | corrupt
  /-- The number of decodes allowed has been used up. -/
  | outOfFuel
  deriving DecidableEq, Repr

/-- What the caller has after reading: the messages delivered in order, the cursor, and why it stopped. -/
structure StreamRead where
  delivered : List Message
  cursor    : Nat
  stop      : StreamStop
  deriving DecidableEq, Repr

/-- The loop of R129 from cursor `cur`: while `cur < len(s)`, decode `s[cur ..)`; on `Ok(m, c)` deliver `m` and advance the
cursor by `c`, never by the buffer's length (R167). At most `fuel` decodes. DESIGN CHOICE (log 19): the test `cur < len(s)` stands
before the first decode too, so an empty buffer is `finished` without a MSG_DES. R129 speaks of a buffer that holds messages and
leaves this case open; a caller that does issue MSG_DES on the empty buffer is answered `BufferTooShort(1)` (R124). -/
def readStream : Nat → Buffer → Nat → StreamRead
  | 0, _, cur => ⟨[], cur, .outOfFuel⟩
  | fuel + 1, buf, cur =>
    if cur < buf.length then
      match msgDes (buf.drop cur) with
      | .ok m c =>
        let r := readStream fuel buf (cur + c)
        { r with delivered := m :: r.delivered }
      | .raised (.bufferTooShort n) => ⟨[], cur, .waiting n⟩
      | .raised .invalidDiscriminant => ⟨[], cur, .corrupt⟩
    else ⟨[], cur, .finished⟩

/-- The whole loop from cursor 0; every message is at least 2 bytes, so one decode per byte and one more suffice. -/
def readAll (buf : Buffer) : StreamRead := readStream (buf.length + 1) buf 0

end Sys2Proof.Machine
end

