-- ==== Sys2Proof/Machine/Flags.lean ====
section
/-!
DEFINITION. MBD-CORE has no flags (10_state.md R16). What stands where flags would is the outcome code of a response and the
validity of its fields (R12, R13, R140): the response record read field by field, each field none where it is not valid.
-/

namespace Sys2Proof.Machine

/-- The 2-bit code of an abnormal outcome (R140). -/
def Abnormal.status : Abnormal → BitVec 2
  | .bufferTooShort _ => 1
  | .invalidDiscriminant => 2
  | .invalidInputLength => 3

/-- `status`: OK 0, BTS 1, INV 2, FLT 3 (R12, R140). -/
def Response.status : Response → BitVec 2
  | .ok _ => 0
  | .raised x => x.status

/-- `missing`, valid when `status = BTS` (R12, R13). -/
def Response.missing : Response → Option Nat
  | .raised (.bufferTooShort n) => some n
  | .raised .invalidDiscriminant => none
  | .raised .invalidInputLength => none
  | .ok _ => none

/-- `consumed` of a result (R12). -/
def Result.consumed : Result → Option Nat
  | .out _ => none
  | .val16 _ => none
  | .val32 _ => none
  | .val64 _ => none
  | .unpacked _ => none
  | .peak _ c => some c
  | .cfg _ c => some c
  | .stat _ c => some c
  | .msg _ c => some c

/-- `consumed` (R12). -/
def Response.consumed : Response → Option Nat
  | .ok r => r.consumed
  | .raised _ => none

/-- `out` (R12). -/
def Response.out : Response → Option Buffer
  | .ok (.out bytes) => some bytes
  | .ok _ => none
  | .raised _ => none

/-- `out_len`, the length of `out` (R12, R34). -/
def Response.outLen (r : Response) : Option Nat := r.out.map List.length

/-- `rval` as an unsigned integer, whatever its width (R12). -/
def Response.rval : Response → Option Nat
  | .ok (.val16 v) => some v.toNat
  | .ok (.val32 v) => some v.toNat
  | .ok (.val64 v) => some v.toNat
  | .ok _ => none
  | .raised _ => none

/-- `rpeak` (R12). -/
def Response.rpeak : Response → Option MeasuredPeak
  | .ok (.unpacked p) => some p
  | .ok (.peak p _) => some p
  | .ok _ => none
  | .raised _ => none

/-- `rcfg` (R12). -/
def Response.rcfg : Response → Option FilterConfig
  | .ok (.cfg c _) => some c
  | .ok _ => none
  | .raised _ => none

/-- `rstat` (R12). -/
def Response.rstat : Response → Option Status
  | .ok (.stat s _) => some s
  | .ok _ => none
  | .raised _ => none

/-- `rmsg` (R12). -/
def Response.rmsg : Response → Option Message
  | .ok (.msg m _) => some m
  | .ok _ => none
  | .raised _ => none

end Sys2Proof.Machine
end

