-- ==== Sys2Proof/Safety.lean ====
section
/-!
DEFINITION. What counts as a safe run, in the terms claims use: no `FLT` occurred (60_exceptions.md R150), the caller kept the
duties the block can see (70_reset_and_hazards.md R162), and every response is one the spec allows (R12, R13, R34, R141).
-/

namespace Sys2Proof.Machine

/-- No `FLT` has occurred in this run (R150). -/
abbrev State.good (s : State) : Prop := s.runFault = none

/-- The largest deficit there is, `18 * (2^64 - 1)` (R141). -/
def maxMissing : Nat := 18 * (2 ^ 64 - 1)

/-- The result an operation may give: an output of a format's length (R34), and consumed counts equal to the length of what
was decoded (R106, R129). -/
def Result.legal : Result → Bool
  | .out bytes =>
    [1, 2, 4, 8, 18, 40, 41].contains bytes.length
      || (decide (9 ≤ bytes.length) && decide ((bytes.length - 9) % 18 = 0))
  | .val16 _ => true
  | .val32 _ => true
  | .val64 _ => true
  | .unpacked p =>
    decide (p.timestamp.toNat < 2 ^ 40) && decide (p.peakHeight.toNat < 2 ^ 28)
      && decide (p.speed.toNat < 2 ^ 10) && decide (p.cycle.toNat < 2 ^ 18)
  | .peak _ c => c == Config.peakLen
  | .cfg _ c => c == Config.cfgLen
  | .stat _ c => c == Config.statLen
  | .msg m c => m.presentable && (c == msgLen m)

/-- The response a transaction may give: a legal result, or a deficit of at least 1 and at most `18 * (2^64 - 1)`. -/
def Response.legal : Response → Bool
  | .ok r => r.legal
  | .raised (.bufferTooShort n) => decide (1 ≤ n) && decide (n ≤ maxMissing)
  | .raised .invalidDiscriminant => true
  | .raised .invalidInputLength => true

/-- The invariant of the machine: the response held is a legal one, and a run whose last response is `FLT` is recorded as
faulty. -/
def State.inv (s : State) : Prop :=
  (∀ r, s.response = some r → r.legal = true) ∧
    (s.response = some (.raised .invalidInputLength) → s.runFault = some .invalidInputLength)

end Sys2Proof.Machine

namespace Sys2Proof

/-- The duties of R162 the block can see: the transaction can be presented, and UNPACK_PEAK gets exactly 12 bytes. -/
def Presented.dutiful (p : Presented) : Bool :=
  match decode p with
  | .error _ => false
  | .ok .opFRefused => false
  | .ok (.unpackPeak input) => decide (input.length = Config.packedLen)
  | .ok _ => true

end Sys2Proof
end

