-- ==== Sys2Proof/Certificates/Slice0/Obligations.lean ====
section
/-!
DEFINITION. The statements for the provers. The results are stated in terms of numbers (quotients, remainders, sums of bytes
at offsets), independently of the shifts and masks the model's own definitions use.
-/

namespace Sys2Proof.Spec

open Sys2Proof Sys2Proof.Machine

/-- The `n` bytes of a number, most significant first: byte `i` is the number divided by `256^(n-1-i)` (30_encoding.md R51). -/
def beBytes (n v : Nat) : Buffer := (List.range n).map fun i => BitVec.ofNat 8 (v / 256 ^ (n - 1 - i))

/-- The number a buffer holds, most significant byte first (30_encoding.md R60). -/
def beValue (b : Buffer) : Nat := b.foldl (fun v x => 256 * v + x.toNat) 0

/-- The 18 bytes of a peak by the table of R53. -/
def peakBytes (p : MeasuredPeak) : Buffer :=
  beBytes 8 p.timestamp.toNat ++ beBytes 4 p.peakHeight.toNat ++ beBytes 2 p.speed.toNat ++ beBytes 4 p.cycle.toNat

/-- The peak that stands at offset `a` by the table of R53. -/
def peakAt (b : Buffer) (a : Nat) : MeasuredPeak :=
  { timestamp := BitVec.ofNat 64 (beValue (memRead b a 8)), peakHeight := BitVec.ofNat 32 (beValue (memRead b (a + 8) 4))
    speed := BitVec.ofNat 16 (beValue (memRead b (a + 12) 2)), cycle := BitVec.ofNat 32 (beValue (memRead b (a + 14) 4)) }

/-- The 40 bytes of a configuration by the table of R54. -/
def cfgBytes (c : FilterConfig) : Buffer :=
  beBytes 8 c.pthresh.toNat ++ beBytes 8 c.tdead.toNat ++ beBytes 8 c.k.toNat ++ beBytes 8 c.l.toNat ++ beBytes 8 c.m.toNat

/-- The configuration that stands at offset `a` by the table of R54. -/
def cfgAt (b : Buffer) (a : Nat) : FilterConfig :=
  { pthresh := BitVec.ofNat 64 (beValue (memRead b a 8)), tdead := BitVec.ofNat 64 (beValue (memRead b (a + 8) 8))
    k := BitVec.ofNat 64 (beValue (memRead b (a + 16) 8)), l := BitVec.ofNat 64 (beValue (memRead b (a + 24) 8))
    m := BitVec.ofNat 64 (beValue (memRead b (a + 32) 8)) }

/-- The bytes of a message by the tables of R57, R58 and R59. -/
def messageBytes : Message → Buffer
  | .data peaks => 0x00 :: (beBytes 8 peaks.length ++ peaks.flatMap peakBytes)
  | .status .start => [0x01, 0x00]
  | .status .stop => [0x01, 0x01]
  | .config c => 0x02 :: cfgBytes c

/-- What MSG_DES answers on a prefix of `n` bytes of a message: the staged deficits of R133. -/
def stagedDeficit (m : Message) (n : Nat) : Nat :=
  if n = 0 then 1
  else
    match m with
    | .data peaks => if n < 9 then 9 - n else 9 + 18 * peaks.length - n
    | .status _ => 2 - n
    | .config _ => 41 - n

/-- The result fields of a response record (R12). -/
inductive Field where
  | missing
  | consumed
  | out
  | outLen
  | rval
  | rpeak
  | rcfg
  | rstat
  | rmsg
  deriving DecidableEq, Repr

/-- Can the field be read in this response? -/
def readable (r : Response) : Field → Bool
  | .missing => r.missing.isSome
  | .consumed => r.consumed.isSome
  | .out => r.out.isSome
  | .outLen => r.outLen.isSome
  | .rval => r.rval.isSome
  | .rpeak => r.rpeak.isSome
  | .rcfg => r.rcfg.isSome
  | .rstat => r.rstat.isSome
  | .rmsg => r.rmsg.isSome

/-- The fields the table of R12 lists for an instruction when its status is `OK`; a wire string has those of the operation that
reads it (log 8). -/
def listed : Instr → List Field
  | .enc16 _ => [.out, .outLen]
  | .enc32 _ => [.out, .outLen]
  | .enc64 _ => [.out, .outLen]
  | .dec16 _ _ => [.rval]
  | .dec32 _ _ _ _ => [.rval]
  | .dec64 _ _ _ _ _ _ _ _ => [.rval]
  | .unpackPeak _ => [.rpeak]
  | .peakSer _ => [.out, .outLen]
  | .peakDes _ => [.consumed, .rpeak]
  | .cfgSer _ => [.out, .outLen]
  | .cfgDes _ => [.consumed, .rcfg]
  | .statSer _ => [.out, .outLen]
  | .statDes _ => [.consumed, .rstat]
  | .msgSer _ => [.out, .outLen]
  | .msgDes _ => [.consumed, .rmsg]
  | .opFRefused => []
  | .be16 _ => [.rval]
  | .be32 _ => [.rval]
  | .be64 _ => [.rval]
  | .packed12 _ _ _ _ => [.rpeak]
  | .peak18 _ => [.consumed, .rpeak]
  | .cfg40 _ => [.consumed, .rcfg]
  | .statStart => [.consumed, .rstat]
  | .statStop => [.consumed, .rstat]
  | .statInvalid _ => [.consumed, .rstat]
  | .msgData _ => [.consumed, .rmsg]
  | .msgStatus _ => [.consumed, .rmsg]
  | .msgConfig _ => [.consumed, .rmsg]
  | .msgInvalidTag _ => [.consumed, .rmsg]

end Sys2Proof.Spec

open Sys2Proof Sys2Proof.Machine

/-! ### Primitive codec -/

/-- R80, R81, R82: the `op` and operand of the three encoders, the operand a value of the operation's own width, and the bytes
they answer. -/
def Obligations.PrimitiveEncodersWriteMostSignificantByteFirst : Prop :=
  (∀ (r : Request) (v : BitVec 16), r.op = 0x0 → r.val.toNat = v.toNat → decode (.request r) = .ok (.enc16 v)) ∧
  (∀ (r : Request) (v : BitVec 32), r.op = 0x1 → r.val.toNat = v.toNat → decode (.request r) = .ok (.enc32 v)) ∧
  (∀ (r : Request) (v : BitVec 64), r.op = 0x2 → r.val.toNat = v.toNat → decode (.request r) = .ok (.enc64 v)) ∧
  (∀ (v : BitVec 16) (s : State),
    exec (.enc16 v) s = .next { s with response := some (.ok (.out (Spec.beBytes 2 v.toNat))) }) ∧
  (∀ (v : BitVec 32) (s : State),
    exec (.enc32 v) s = .next { s with response := some (.ok (.out (Spec.beBytes 4 v.toNat))) }) ∧
  (∀ (v : BitVec 64) (s : State),
    exec (.enc64 v) s = .next { s with response := some (.ok (.out (Spec.beBytes 8 v.toNat))) })

/-- ENC16 and ENC32 take the low 16 and 32 bits of a wider `val`. The spec gives `val` exactly the operation's width (R11), so
such a request is none of the spec's, and this is the model's choice (log 9). -/
def Obligations.WideValuesGiveTheirLowBits : Prop :=
  (∀ r : Request, r.op = 0x0 → ∃ v : BitVec 16, decode (.request r) = .ok (.enc16 v) ∧ v.toNat = r.val.toNat % 2 ^ 16) ∧
  (∀ r : Request, r.op = 0x1 → ∃ v : BitVec 32, decode (.request r) = .ok (.enc32 v) ∧ v.toNat = r.val.toNat % 2 ^ 32)

/-- R83, R84, R85: the `op` and operand of the three decoders, and the number they answer. -/
def Obligations.PrimitiveDecodersReadMostSignificantByteFirst : Prop :=
  (∀ (r : Request) (b0 b1 : Byte), r.op = 0x3 → r.input = [b0, b1] → decode (.request r) = .ok (.dec16 b0 b1)) ∧
  (∀ (r : Request) (b0 b1 b2 b3 : Byte), r.op = 0x4 → r.input = [b0, b1, b2, b3] →
    decode (.request r) = .ok (.dec32 b0 b1 b2 b3)) ∧
  (∀ (r : Request) (b0 b1 b2 b3 b4 b5 b6 b7 : Byte), r.op = 0x5 → r.input = [b0, b1, b2, b3, b4, b5, b6, b7] →
    decode (.request r) = .ok (.dec64 b0 b1 b2 b3 b4 b5 b6 b7)) ∧
  (∀ (b0 b1 : Byte) (s : State),
    exec (.dec16 b0 b1) s =
      .next { s with response := some (.ok (.val16 (BitVec.ofNat 16 (Spec.beValue [b0, b1])))) }) ∧
  (∀ (b0 b1 b2 b3 : Byte) (s : State),
    exec (.dec32 b0 b1 b2 b3) s =
      .next { s with response := some (.ok (.val32 (BitVec.ofNat 32 (Spec.beValue [b0, b1, b2, b3])))) }) ∧
  (∀ (b0 b1 b2 b3 b4 b5 b6 b7 : Byte) (s : State),
    exec (.dec64 b0 b1 b2 b3 b4 b5 b6 b7) s =
      .next { s with response := some (.ok (.val64 (BitVec.ofNat 64 (Spec.beValue [b0, b1, b2, b3, b4, b5, b6, b7])))) })

/-- R86: encoding and decoding are inverse to each other, in both directions, at each width. -/
def Obligations.PrimitiveCodecIsABijection : Prop :=
  (∀ (v : BitVec 16) (s u : State), ∃ b0 b1,
    exec (.enc16 v) s = .next { s with response := some (.ok (.out [b0, b1])) } ∧
    exec (.dec16 b0 b1) u = .next { u with response := some (.ok (.val16 v)) }) ∧
  (∀ (b0 b1 : Byte) (s u : State), ∃ v,
    exec (.dec16 b0 b1) s = .next { s with response := some (.ok (.val16 v)) } ∧
    exec (.enc16 v) u = .next { u with response := some (.ok (.out [b0, b1])) }) ∧
  (∀ (v : BitVec 32) (s u : State), ∃ b0 b1 b2 b3,
    exec (.enc32 v) s = .next { s with response := some (.ok (.out [b0, b1, b2, b3])) } ∧
    exec (.dec32 b0 b1 b2 b3) u = .next { u with response := some (.ok (.val32 v)) }) ∧
  (∀ (b0 b1 b2 b3 : Byte) (s u : State), ∃ v,
    exec (.dec32 b0 b1 b2 b3) s = .next { s with response := some (.ok (.val32 v)) } ∧
    exec (.enc32 v) u = .next { u with response := some (.ok (.out [b0, b1, b2, b3])) }) ∧
  (∀ (v : BitVec 64) (s u : State), ∃ b0 b1 b2 b3 b4 b5 b6 b7,
    exec (.enc64 v) s = .next { s with response := some (.ok (.out [b0, b1, b2, b3, b4, b5, b6, b7])) } ∧
    exec (.dec64 b0 b1 b2 b3 b4 b5 b6 b7) u = .next { u with response := some (.ok (.val64 v)) }) ∧
  (∀ (b0 b1 b2 b3 b4 b5 b6 b7 : Byte) (s u : State), ∃ v,
    exec (.dec64 b0 b1 b2 b3 b4 b5 b6 b7) s = .next { s with response := some (.ok (.val64 v)) } ∧
    exec (.enc64 v) u = .next { u with response := some (.ok (.out [b0, b1, b2, b3, b4, b5, b6, b7])) })

/-- The primitive decoders' operands have exactly 2, 4, 8 bytes by type (R83, D15; log 16): a request with another size is
refused by name, whatever else is pending. -/
def Obligations.PrimitiveDecodersRefuseOtherSizes : Prop :=
  ∀ (s : State) (r : Request) (rest : List Presented), s.pending = .request r :: rest →
    (r.op = 0x3 → r.input.length ≠ 2 → step s = .refused (.operandLength 2 r.input.length)) ∧
    (r.op = 0x4 → r.input.length ≠ 4 → step s = .refused (.operandLength 4 r.input.length)) ∧
    (r.op = 0x5 → r.input.length ≠ 8 → step s = .refused (.operandLength 8 r.input.length))

/-! ### Packed peak decoder -/

/-- R90, R91: the four fields of UNPACK_PEAK on any 12 bytes, as numbers; any other length is the fault. -/
def Obligations.UnpackPeakExtractsTheFourFields : Prop :=
  (∀ r : Request, r.op = 0x6 → decode (.request r) = .ok (.unpackPeak r.input)) ∧
  (∀ (b0 b1 b2 b3 b4 b5 b6 b7 b8 b9 b10 b11 : Byte) (s : State),
    exec (.unpackPeak [b0, b1, b2, b3, b4, b5, b6, b7, b8, b9, b10, b11]) s =
      .next { s with response := some (.ok (.unpacked
        { timestamp := BitVec.ofNat 64
            (b0.toNat + 2 ^ 8 * b1.toNat + 2 ^ 16 * b2.toNat + 2 ^ 24 * b3.toNat + 2 ^ 32 * b4.toNat)
          peakHeight := BitVec.ofNat 32
            (b8.toNat / 16 + 2 ^ 4 * b9.toNat + 2 ^ 12 * b10.toNat + 2 ^ 20 * b11.toNat)
          speed := BitVec.ofNat 16 (b7.toNat / 4 + 2 ^ 6 * (b8.toNat % 16))
          cycle := BitVec.ofNat 32 (b5.toNat + 2 ^ 8 * b6.toNat + 2 ^ 16 * (b7.toNat % 4)) })) }) ∧
  (∀ (input : Buffer) (s : State), input.length ≠ 12 →
    ∃ t, exec (.unpackPeak input) s = .next t ∧ t.response = some (.raised .invalidInputLength))

/-- R93, R143: a length other than 12, shorter or longer, is answered `FLT`; the fault is recorded as the model's own
bookkeeping (log 4), and nothing else changes. -/
def Obligations.UnpackPeakFaultsOnOtherLengths : Prop :=
  ∀ (input : Buffer) (s : State), input.length ≠ 12 →
    exec (.unpackPeak input) s =
      .next { s with response := some (.raised .invalidInputLength), runFault := some .invalidInputLength }

/-- R92: the ranges of the four results, injectivity, and that the image is exactly the records within the ranges. -/
def Obligations.UnpackPeakIsABijectionOntoItsRanges : Prop :=
  (∀ (input : Buffer) (s : State), input.length = 12 → ∃ p : MeasuredPeak,
    exec (.unpackPeak input) s = .next { s with response := some (.ok (.unpacked p)) } ∧
    p.timestamp.toNat < 2 ^ 40 ∧ p.cycle.toNat < 2 ^ 18 ∧ p.speed.toNat < 2 ^ 10 ∧ p.peakHeight.toNat < 2 ^ 28) ∧
  (∀ (a b : Buffer) (s : State), a.length = 12 → b.length = 12 →
    exec (.unpackPeak a) s = exec (.unpackPeak b) s → a = b) ∧
  (∀ (p : MeasuredPeak) (s : State),
    p.timestamp.toNat < 2 ^ 40 → p.cycle.toNat < 2 ^ 18 → p.speed.toNat < 2 ^ 10 → p.peakHeight.toNat < 2 ^ 28 →
    ∃ input : Buffer, input.length = 12 ∧
      exec (.unpackPeak input) s = .next { s with response := some (.ok (.unpacked p)) })

/-- R61, R96: on 12 bytes UNPACK_PEAK gives what the layout table assembles piece by piece, and what `read(O, N)` reads from
the 96-bit little-endian word at the offsets 0, 40, 58, 68. -/
def Obligations.UnpackPeakAgreesWithTableAndWordView : Prop :=
  ∀ (input : Buffer) (s : State), input.length = 12 →
    exec (.unpackPeak input) s =
      .next { s with response := some (.ok (.unpacked
        { timestamp := BitVec.ofNat 64 (packedAssemble input .timestamp)
          peakHeight := BitVec.ofNat 32 (packedAssemble input .peakHeight)
          speed := BitVec.ofNat 16 (packedAssemble input .speed)
          cycle := BitVec.ofNat 32 (packedAssemble input .cycle) })) } ∧
    exec (.unpackPeak input) s =
      .next { s with response := some (.ok (.unpacked
        { timestamp := (packedRead input 0 40).setWidth 64
          peakHeight := (packedRead input 68 28).setWidth 32
          speed := (packedRead input 58 10).setWidth 16
          cycle := (packedRead input 40 18).setWidth 32 })) }

/-! ### Canonical records -/

/-- R100, R102, R104: the `op`, operand and output bytes of the three record serializers, and their fixed lengths. -/
def Obligations.RecordSerializersWriteTheirFormats : Prop :=
  (∀ r : Request, r.op = 0x7 → decode (.request r) = .ok (.peakSer r.peak)) ∧
  (∀ r : Request, r.op = 0x9 → decode (.request r) = .ok (.cfgSer r.cfg)) ∧
  (∀ r : Request, r.op = 0xB → decode (.request r) = .ok (.statSer r.stat)) ∧
  (∀ (p : MeasuredPeak) (s : State),
    exec (.peakSer p) s = .next { s with response := some (.ok (.out (Spec.peakBytes p))) } ∧
      (Spec.peakBytes p).length = 18) ∧
  (∀ (c : FilterConfig) (s : State),
    exec (.cfgSer c) s = .next { s with response := some (.ok (.out (Spec.cfgBytes c))) } ∧
      (Spec.cfgBytes c).length = 40) ∧
  (∀ s : State, exec (.statSer .start) s = .next { s with response := some (.ok (.out [0x00])) }) ∧
  (∀ s : State, exec (.statSer .stop) s = .next { s with response := some (.ok (.out [0x01])) })

/-- R101: PEAK_DES on a buffer of any length. -/
def Obligations.PeakDesReadsTheCanonicalRecord : Prop :=
  (∀ r : Request, r.op = 0x8 → decode (.request r) = .ok (.peakDes r.input)) ∧
  (∀ (input : Buffer) (s : State),
    exec (.peakDes input) s =
      .next { s with response := some (if input.length < 18 then .raised (.bufferTooShort (18 - input.length))
         else .ok (.peak (Spec.peakAt input 0) 18)) })

/-- R103: CFG_DES on a buffer of any length. -/
def Obligations.CfgDesReadsTheConfigurationRecord : Prop :=
  (∀ r : Request, r.op = 0xA → decode (.request r) = .ok (.cfgDes r.input)) ∧
  (∀ (input : Buffer) (s : State),
    exec (.cfgDes input) s =
      .next { s with response := some (if input.length < 40 then .raised (.bufferTooShort (40 - input.length))
         else .ok (.cfg (Spec.cfgAt input 0) 40)) })

/-- R105: STAT_DES on a buffer of any length; only byte 0 is looked at, and the whole byte is compared. -/
def Obligations.StatDesReadsTheStatusByte : Prop :=
  (∀ r : Request, r.op = 0xC → decode (.request r) = .ok (.statDes r.input)) ∧
  (∀ s : State, exec (.statDes []) s = .next { s with response := some (.raised (.bufferTooShort 1)) }) ∧
  (∀ (x : Byte) (rest : Buffer) (s : State),
    exec (.statDes (x :: rest)) s =
      .next { s with response := some (if x.toNat = 0 then .ok (.stat .start 1) else if x.toNat = 1 then .ok (.stat .stop 1)
         else .raised .invalidDiscriminant) })

/-- R108: decoding an encoding gives the value back and the encoding's length, for every record and message; and encoding
what was decoded from 18 or 40 bytes, or from a valid status byte, gives those bytes back. -/
def Obligations.RecordRoundTrips : Prop :=
  (∀ (p : MeasuredPeak) (s u : State), ∃ b,
    exec (.peakSer p) s = .next { s with response := some (.ok (.out b)) } ∧ b.length = 18 ∧
    exec (.peakDes b) u = .next { u with response := some (.ok (.peak p 18)) }) ∧
  (∀ (c : FilterConfig) (s u : State), ∃ b,
    exec (.cfgSer c) s = .next { s with response := some (.ok (.out b)) } ∧ b.length = 40 ∧
    exec (.cfgDes b) u = .next { u with response := some (.ok (.cfg c 40)) }) ∧
  (∀ (st : Status) (s u : State), ∃ b,
    exec (.statSer st) s = .next { s with response := some (.ok (.out b)) } ∧ b.length = 1 ∧
    exec (.statDes b) u = .next { u with response := some (.ok (.stat st 1)) }) ∧
  (∀ (m : Message) (s u : State), m.presentable = true → ∃ b,
    exec (.msgSer m) s = .next { s with response := some (.ok (.out b)) } ∧
    exec (.msgDes b) u = .next { u with response := some (.ok (.msg m b.length)) }) ∧
  (∀ (b : Buffer) (s u : State), b.length = 18 → ∃ p,
    exec (.peakDes b) s = .next { s with response := some (.ok (.peak p 18)) } ∧
    exec (.peakSer p) u = .next { u with response := some (.ok (.out b)) }) ∧
  (∀ (b : Buffer) (s u : State), b.length = 40 → ∃ c,
    exec (.cfgDes b) s = .next { s with response := some (.ok (.cfg c 40)) } ∧
    exec (.cfgSer c) u = .next { u with response := some (.ok (.out b)) }) ∧
  (∀ (x : Byte) (s u : State), x.toNat < 2 → ∃ st,
    exec (.statDes [x]) s = .next { s with response := some (.ok (.stat st 1)) } ∧
    exec (.statSer st) u = .next { u with response := some (.ok (.out [x])) })

/-- R106, R110: a buffer shorter than the record is answered with the exact shortfall, which is at least 1 and at most the
record's length; with exactly that many further bytes, whatever they are, the length test passes. -/
def Obligations.RecordShortfallIsExact : Prop :=
  (∀ (b extra : Buffer) (s : State), b.length < 18 → extra.length = 18 - b.length →
    exec (.peakDes b) s = .next { s with response := some (.raised (.bufferTooShort (18 - b.length))) } ∧
    1 ≤ 18 - b.length ∧ 18 - b.length ≤ 18 ∧
    ∃ p, exec (.peakDes (b ++ extra)) s = .next { s with response := some (.ok (.peak p 18)) }) ∧
  (∀ (b extra : Buffer) (s : State), b.length < 40 → extra.length = 40 - b.length →
    exec (.cfgDes b) s = .next { s with response := some (.raised (.bufferTooShort (40 - b.length))) } ∧
    1 ≤ 40 - b.length ∧ 40 - b.length ≤ 40 ∧
    ∃ c, exec (.cfgDes (b ++ extra)) s = .next { s with response := some (.ok (.cfg c 40)) }) ∧
  (∀ (x : Byte) (s : State),
    exec (.statDes []) s = .next { s with response := some (.raised (.bufferTooShort 1)) } ∧
    ∃ t, exec (.statDes [x]) s = .next t ∧ ∀ n, t.response ≠ some (.raised (.bufferTooShort n)))

/-- R111: the canonical decoders accept every bit pattern of the right length; each of the `2^144` peaks and `2^320`
configurations is decoded from some buffer, and of the 256 status bytes exactly 0 and 1 are accepted. -/
def Obligations.CanonicalDecodersCheckNoRange : Prop :=
  (∀ (p : MeasuredPeak) (s : State), ∃ b : Buffer, b.length = 18 ∧
    exec (.peakDes b) s = .next { s with response := some (.ok (.peak p 18)) }) ∧
  (∀ (c : FilterConfig) (s : State), ∃ b : Buffer, b.length = 40 ∧
    exec (.cfgDes b) s = .next { s with response := some (.ok (.cfg c 40)) }) ∧
  (∀ (b : Buffer) (s : State), b.length = 18 → ∃ p,
    exec (.peakDes b) s = .next { s with response := some (.ok (.peak p 18)) }) ∧
  (∀ (b : Buffer) (s : State), b.length = 40 → ∃ c,
    exec (.cfgDes b) s = .next { s with response := some (.ok (.cfg c 40)) }) ∧
  (∀ (x : Byte) (s : State),
    (∃ st, exec (.statDes [x]) s = .next { s with response := some (.ok (.stat st 1)) }) ↔ x.toNat < 2)

/-! ### Message envelope -/

/-- R122, R123: MSG_SER of a `Status` and of a `Config` message. -/
def Obligations.MsgSerWritesStatusAndConfig : Prop :=
  (∀ s : State, exec (.msgSer (.status .start)) s = .next { s with response := some (.ok (.out [0x01, 0x00])) }) ∧
  (∀ s : State, exec (.msgSer (.status .stop)) s = .next { s with response := some (.ok (.out [0x01, 0x01])) }) ∧
  (∀ (c : FilterConfig) (s : State),
    exec (.msgSer (.config c)) s = .next { s with response := some (.ok (.out (0x02 :: Spec.cfgBytes c))) })

/-- The `op` and operand of MSG_SER (R120) and its output for `Data` messages (R121): tag, 8-byte count, the peaks in order. It
holds for every message within MAXPEAKS, which the spec leaves open (D16) and the model takes as large as the spec admits
(log 5, the model's choice). -/
def Obligations.MsgSerWritesData : Prop :=
  (∀ r : Request, r.op = 0xD → r.msg.presentable = true → decode (.request r) = .ok (.msgSer r.msg)) ∧
  (∀ (peaks : List MeasuredPeak) (s : State), peaks.length ≤ 2 ^ 64 - 1 →
    exec (.msgSer (.data peaks)) s =
      .next { s with response := some (.ok (.out
        (0x00 :: (Spec.beBytes 8 peaks.length ++ peaks.flatMap Spec.peakBytes)))) })

/-- A `Message::Data` above MAXPEAKS cannot be presented (D16; log 5): the request is refused by name. -/
def Obligations.MsgSerRefusesMoreThanMaxPeaks : Prop :=
  ∀ (s : State) (r : Request) (rest : List Presented) (peaks : List MeasuredPeak),
    s.pending = .request r :: rest → r.op = 0xD → r.msg = .data peaks → 2 ^ 64 ≤ peaks.length →
    step s = .refused (.dataTooLong peaks.length)

/-- R124, R145: the empty buffer is answered `BufferTooShort(1)`, and the tag is looked at before any length. -/
def Obligations.MsgDesTestsEmptyThenTag : Prop :=
  (∀ r : Request, r.op = 0xE → decode (.request r) = .ok (.msgDes r.input)) ∧
  (∀ s : State, exec (.msgDes []) s = .next { s with response := some (.raised (.bufferTooShort 1)) }) ∧
  (∀ (tag : Byte) (s : State), 3 ≤ tag.toNat →
    exec (.msgDes [tag]) s = .next { s with response := some (.raised .invalidDiscriminant) }) ∧
  (∀ s : State, exec (.msgDes [0x00]) s = .next { s with response := some (.raised (.bufferTooShort 8)) }) ∧
  (∀ s : State, exec (.msgDes [0x01]) s = .next { s with response := some (.raised (.bufferTooShort 1)) }) ∧
  (∀ s : State, exec (.msgDes [0x02]) s = .next { s with response := some (.raised (.bufferTooShort 40)) })

/-- R62, R128: a tag of 3 or more is `InvalidDiscriminant`, whatever follows and however long the buffer is. -/
def Obligations.MsgDesRejectsOtherTags : Prop :=
  ∀ (tag : Byte) (rest : Buffer) (s : State), 3 ≤ tag.toNat →
    exec (.msgDes (tag :: rest)) s = .next { s with response := some (.raised .invalidDiscriminant) }

/-- R125: MSG_DES on a buffer whose tag is `Data`, at every length and every count. -/
def Obligations.MsgDesReadsData : Prop :=
  ∀ (rest : Buffer) (s : State),
    let input : Buffer := 0x00 :: rest
    let n := Spec.beValue (memRead input 1 8)
    exec (.msgDes input) s =
      .next { s with response := some (if input.length < 9 then .raised (.bufferTooShort (9 - input.length))
         else if input.length - 9 < n * 18 then .raised (.bufferTooShort (n * 18 - (input.length - 9)))
         else .ok (.msg (.data ((List.range n).map fun i => Spec.peakAt input (9 + 18 * i))) (9 + 18 * n))) }

/-- R126: MSG_DES on a buffer whose tag is `Status`; the length test precedes the status byte's. -/
def Obligations.MsgDesReadsStatus : Prop :=
  (∀ s : State, exec (.msgDes [0x01]) s = .next { s with response := some (.raised (.bufferTooShort 1)) }) ∧
  (∀ (x : Byte) (rest : Buffer) (s : State),
    exec (.msgDes (0x01 :: x :: rest)) s =
      .next { s with response := some (if x.toNat = 0 then .ok (.msg (.status .start) 2)
         else if x.toNat = 1 then .ok (.msg (.status .stop) 2)
         else .raised .invalidDiscriminant) })

/-- R127: MSG_DES on a buffer whose tag is `Config`. -/
def Obligations.MsgDesReadsConfig : Prop :=
  ∀ (rest : Buffer) (s : State),
    let input : Buffer := 0x02 :: rest
    exec (.msgDes input) s =
      .next { s with response := some (if input.length < 41 then .raised (.bufferTooShort (41 - input.length))
         else .ok (.msg (.config (Spec.cfgAt input 1)) 41)) }

/-- R63: a status byte of 2 or more is `InvalidDiscriminant`, both for STAT_DES and inside a `Status` message. -/
def Obligations.InvalidStatusBytesAreRejected : Prop :=
  ∀ (x : Byte) (rest : Buffer) (s : State), 2 ≤ x.toNat →
    exec (.statDes (x :: rest)) s = .next { s with response := some (.raised .invalidDiscriminant) } ∧
    exec (.msgDes (0x01 :: x :: rest)) s = .next { s with response := some (.raised .invalidDiscriminant) }

/-- The length of every serializer's output (R109, R131). The `Data` clause holds within MAXPEAKS, which the spec leaves open
(D16) and to which the model gives the largest value the spec admits (log 5, the model's choice). -/
def Obligations.SerializedLengths : Prop :=
  (∀ (peaks : List MeasuredPeak) (s : State), peaks.length ≤ Config.maxPeaks → ∃ b : Buffer,
    exec (.msgSer (.data peaks)) s = .next { s with response := some (.ok (.out b)) } ∧ b.length = 9 + 18 * peaks.length) ∧
  (∀ (st : Status) (s : State), ∃ b : Buffer,
    exec (.msgSer (.status st)) s = .next { s with response := some (.ok (.out b)) } ∧ b.length = 2) ∧
  (∀ (c : FilterConfig) (s : State), ∃ b : Buffer,
    exec (.msgSer (.config c)) s = .next { s with response := some (.ok (.out b)) } ∧ b.length = 41) ∧
  (∀ (p : MeasuredPeak) (s : State), ∃ b : Buffer,
    exec (.peakSer p) s = .next { s with response := some (.ok (.out b)) } ∧ b.length = 18) ∧
  (∀ (c : FilterConfig) (s : State), ∃ b : Buffer,
    exec (.cfgSer c) s = .next { s with response := some (.ok (.out b)) } ∧ b.length = 40) ∧
  (∀ (st : Status) (s : State), ∃ b : Buffer,
    exec (.statSer st) s = .next { s with response := some (.ok (.out b)) } ∧ b.length = 1)

/-- R132: the round trip of messages, also with any bytes appended; and the encoding of a decoded message is the consumed
part of the buffer. -/
def Obligations.MessageRoundTripIsUnique : Prop :=
  (∀ (m : Message) (extra : Buffer) (s u : State), m.presentable = true → ∃ b,
    exec (.msgSer m) s = .next { s with response := some (.ok (.out b)) } ∧
    exec (.msgDes (b ++ extra)) u = .next { u with response := some (.ok (.msg m b.length)) }) ∧
  (∀ (b : Buffer) (m : Message) (c : Nat) (s u t : State),
    exec (.msgDes b) s = .next t → t.response = some (.ok (.msg m c)) →
    exec (.msgSer m) u = .next { u with response := some (.ok (.out (b.take c))) })

/-- R133: a strict prefix of a message's encoding is answered with the staged deficit, never with a value. -/
def Obligations.MessageTruncationIsStaged : Prop :=
  ∀ (m : Message) (n : Nat) (s : State), m.presentable = true → n < (Spec.messageBytes m).length →
    exec (.msgDes ((Spec.messageBytes m).take n)) s =
      .next { s with response := some (.raised (.bufferTooShort (Spec.stagedDeficit m n))) } ∧
    1 ≤ Spec.stagedDeficit m n

/-- R134: the empty `Data` message is 9 zero bytes, and they decode to it. -/
def Obligations.EmptyDataMessageIsValid : Prop :=
  ∀ s : State,
    exec (.msgSer (.data [])) s = .next { s with response := some (.ok (.out (List.replicate 9 0x00))) } ∧
    exec (.msgDes (List.replicate 9 0x00)) s = .next { s with response := some (.ok (.msg (.data []) 9)) }

/-- R135: a count larger than the payload is answered with the exact deficit, for every count the field can hold; nothing
wraps. -/
def Obligations.LargeCountsNeverWrap : Prop :=
  ∀ (n : Nat) (payload : Buffer) (s : State), n < 2 ^ 64 → payload.length < 18 * n →
    exec (.msgDes (0x00 :: (Spec.beBytes 8 n ++ payload))) s =
      .next { s with response := some (.raised (.bufferTooShort (18 * n - payload.length))) }

/-- R129: what a successful MSG_DES consumed is the decoded message's length, and it lies inside the buffer. -/
def Obligations.MsgDesConsumesExactlyTheMessage : Prop :=
  ∀ (input : Buffer) (s t : State) (m : Message) (c : Nat),
    exec (.msgDes input) s = .next t → t.response = some (.ok (.msg m c)) →
    c = (Spec.messageBytes m).length ∧ c ≤ input.length ∧ m.presentable = true

/-- R37: the four deserializers depend on the consumed bytes alone, while UNPACK_PEAK accepts no trailing byte. -/
def Obligations.TrailingBytesDoNotMatter : Prop :=
  (∀ op ∈ [Instr.peakDes, Instr.cfgDes, Instr.statDes, Instr.msgDes],
    ∀ (a b : Buffer) (s t : State) (r : Result) (c : Nat),
      exec (op a) s = .next t → t.response = some (.ok r) → r.consumed = some c → a.take c = b.take c →
      exec (op b) s = .next t) ∧
  (∀ (a extra : Buffer) (s : State), a.length = 12 → extra ≠ [] →
    ∃ t, exec (.unpackPeak (a ++ extra)) s = .next t ∧ t.response = some (.raised .invalidInputLength))

/-- R141, R148: after `BufferTooShort(n)` the retry with fewer than `n` further bytes fails the same test with the count
reduced; with `n` it does not run short, but for the two staged cases (the empty buffer of MSG_DES, a `Data` header). -/
def Obligations.RetryFromTheSameOffset : Prop :=
  (∀ op ∈ [Instr.peakDes, Instr.cfgDes, Instr.statDes, Instr.msgDes],
    ∀ (b extra : Buffer) (s t : State) (n : Nat),
      exec (op b) s = .next t → t.response = some (.raised (.bufferTooShort n)) → extra.length < n →
      ∃ u, exec (op (b ++ extra)) s = .next u ∧
        u.response = some (.raised (.bufferTooShort (n - extra.length)))) ∧
  (∀ op ∈ [Instr.peakDes, Instr.cfgDes, Instr.statDes, Instr.msgDes],
    ∀ (b extra : Buffer) (s t : State) (n : Nat),
      exec (op b) s = .next t → t.response = some (.raised (.bufferTooShort n)) → n ≤ extra.length →
      (op b = .msgDes b → 9 ≤ b.length ∨ ∃ x rest, b = x :: rest ∧ x ≠ 0x00) →
      ∃ u, exec (op (b ++ extra)) s = .next u ∧ ∀ k, u.response ≠ some (.raised (.bufferTooShort k)))

/-- R43, R129, R149: reading a buffer of messages by the cursor law delivers them all, in order; bytes after them that begin
with an invalid tag, or with a message cut short, stop the reading at exactly that place with nothing more delivered. The loop, and that it answers an
empty buffer as finished without a decode, is the model's choice (log 19). -/
def Obligations.StreamsAreReadInOrder : Prop :=
  ∀ ms : List Message, (∀ m ∈ ms, m.presentable = true) →
    readAll (ms.flatMap Spec.messageBytes) = ⟨ms, (ms.flatMap Spec.messageBytes).length, .finished⟩ ∧
    (∀ (x : Byte) (rest : Buffer), 3 ≤ x.toNat →
      readAll (ms.flatMap Spec.messageBytes ++ x :: rest) = ⟨ms, (ms.flatMap Spec.messageBytes).length, .corrupt⟩) ∧
    (∀ (m : Message) (n : Nat), m.presentable = true → 0 < n → n < (Spec.messageBytes m).length →
      readAll (ms.flatMap Spec.messageBytes ++ (Spec.messageBytes m).take n) =
        ⟨ms, (ms.flatMap Spec.messageBytes).length, .waiting (Spec.stagedDeficit m n)⟩)

/-! ### Outcomes and responses -/

/-- R144: which operation ends in which outcome, as the status code of R140 (OK 0, BTS 1, INV 2, FLT 3), on every operand. -/
def Obligations.OutcomeOfEveryOperation : Prop :=
  (∀ (v : BitVec 16) (s : State), ∃ t r, exec (.enc16 v) s = .next t ∧ t.response = some r ∧ r.status = 0) ∧
  (∀ (v : BitVec 32) (s : State), ∃ t r, exec (.enc32 v) s = .next t ∧ t.response = some r ∧ r.status = 0) ∧
  (∀ (v : BitVec 64) (s : State), ∃ t r, exec (.enc64 v) s = .next t ∧ t.response = some r ∧ r.status = 0) ∧
  (∀ (b0 b1 : Byte) (s : State), ∃ t r, exec (.dec16 b0 b1) s = .next t ∧ t.response = some r ∧ r.status = 0) ∧
  (∀ (b0 b1 b2 b3 : Byte) (s : State),
    ∃ t r, exec (.dec32 b0 b1 b2 b3) s = .next t ∧ t.response = some r ∧ r.status = 0) ∧
  (∀ (b0 b1 b2 b3 b4 b5 b6 b7 : Byte) (s : State),
    ∃ t r, exec (.dec64 b0 b1 b2 b3 b4 b5 b6 b7) s = .next t ∧ t.response = some r ∧ r.status = 0) ∧
  (∀ (input : Buffer) (s : State), ∃ t r, exec (.unpackPeak input) s = .next t ∧ t.response = some r ∧
    r.status = if input.length = 12 then 0 else 3) ∧
  (∀ (p : MeasuredPeak) (s : State), ∃ t r, exec (.peakSer p) s = .next t ∧ t.response = some r ∧ r.status = 0) ∧
  (∀ (c : FilterConfig) (s : State), ∃ t r, exec (.cfgSer c) s = .next t ∧ t.response = some r ∧ r.status = 0) ∧
  (∀ (st : Status) (s : State), ∃ t r, exec (.statSer st) s = .next t ∧ t.response = some r ∧ r.status = 0) ∧
  (∀ (m : Message) (s : State), m.presentable = true →
    ∃ t r, exec (.msgSer m) s = .next t ∧ t.response = some r ∧ r.status = 0) ∧
  (∀ (input : Buffer) (s : State), ∃ t r, exec (.peakDes input) s = .next t ∧ t.response = some r ∧
    r.status = if 18 ≤ input.length then 0 else 1) ∧
  (∀ (input : Buffer) (s : State), ∃ t r, exec (.cfgDes input) s = .next t ∧ t.response = some r ∧
    r.status = if 40 ≤ input.length then 0 else 1) ∧
  (∀ (input : Buffer) (s : State), ∃ t r, exec (.statDes input) s = .next t ∧ t.response = some r ∧
    r.status = if input.length = 0 then 1 else if (byteAt input 0).toNat ≤ 1 then 0 else 2) ∧
  (∀ (input : Buffer) (s : State), ∃ t r, exec (.msgDes input) s = .next t ∧ t.response = some r ∧
    r.status =
      if input.length = 0 then 1
      else if (byteAt input 0).toNat = 0 then
        if input.length < 9 then 1
        else if input.length - 9 < 18 * Spec.beValue (memRead input 1 8) then 1 else 0
      else if (byteAt input 0).toNat = 1 then
        if input.length < 2 then 1 else if (byteAt input 1).toNat ≤ 1 then 0 else 2
      else if (byteAt input 0).toNat = 2 then if input.length < 41 then 1 else 0
      else 2)

/-- R141, R66: every deficit any instruction answers is at least 1, at most `18 * (2^64 - 1)`, and fits 69 bits. -/
def Obligations.DeficitsFitSixtyNineBits : Prop :=
  ∀ (i : Instr) (s t : State) (r : Response) (n : Nat),
    exec i s = .next t → t.response = some r → r.missing = some n →
    1 ≤ n ∧ n ≤ 18 * (2 ^ 64 - 1) ∧ n < 2 ^ 69

/-- R13: when the status of an instruction's response is OK, exactly the fields R12 lists for it can be read (for a wire string
those of the reading operation, log 8, the model's choice); when it is BTS, `missing` alone; when it is INV or FLT, none. And
whatever response there is: when it is OK, exactly one of `out`, `rval`, `rpeak`, `rcfg`, `rstat`, `rmsg`, with `outLen` beside
`out` only and `consumed` beside a decoded record or message only. -/
def Obligations.InvalidFieldsCannotBeRead : Prop :=
  (∀ (i : Instr) (s t : State) (r : Response), exec i s = .next t → t.response = some r → ∀ f : Spec.Field,
    (r.status = 0 → (Spec.readable r f = true ↔ f ∈ Spec.listed i))) ∧
  (∀ (r : Response) (f : Spec.Field),
    (r.status = 1 → (Spec.readable r f = true ↔ f = .missing)) ∧
    (r.status = 2 ∨ r.status = 3 → Spec.readable r f = false)) ∧
  (∀ r : Response, r.status = 0 →
    Spec.readable r .missing = false ∧
    (∃ f ∈ [Spec.Field.out, .rval, .rpeak, .rcfg, .rstat, .rmsg],
      ∀ g ∈ [Spec.Field.out, .rval, .rpeak, .rcfg, .rstat, .rmsg], Spec.readable r g = true ↔ g = f) ∧
    (Spec.readable r .outLen = Spec.readable r .out) ∧
    (Spec.readable r .consumed = true → Spec.readable r .out = false ∧ Spec.readable r .rval = false))

/-- R7, R38, R146: an instruction either refuses in every state or answers in every state, with a response that depends on
the instruction alone; beyond the response it changes nothing, but for the model's own record of an `InvalidInputLength` (log 4,
the model's choice). -/
def Obligations.EveryInstructionIsAPureFunction : Prop :=
  ∀ i : Instr,
    (∃ x, ∀ s : State, exec i s = .refused x) ∨
    (∃ r, ∀ s : State, exec i s =
      .next { s with
        response := some r
        runFault := if r = .raised .invalidInputLength then some .invalidInputLength else s.runFault })

/-! ### Wire format rows -/

/-- The strings of the primitive, packed and record formats (R51 to R54) complete with their values. That such a string is a
transaction of its own is the model's choice (log 8). -/
def Obligations.RecordFormatStringsComplete : Prop :=
  (∀ (v : BitVec 16) (s : State), exec (.be16 v) s = .next { s with response := some (.ok (.val16 v)) }) ∧
  (∀ (v : BitVec 32) (s : State), exec (.be32 v) s = .next { s with response := some (.ok (.val32 v)) }) ∧
  (∀ (v : BitVec 64) (s : State), exec (.be64 v) s = .next { s with response := some (.ok (.val64 v)) }) ∧
  (∀ (t : BitVec 40) (c : BitVec 18) (sp : BitVec 10) (h : BitVec 28) (s : State),
    exec (.packed12 t c sp h) s =
      .next { s with response := some (.ok (.unpacked
        { timestamp := BitVec.ofNat 64 t.toNat, peakHeight := BitVec.ofNat 32 h.toNat
          speed := BitVec.ofNat 16 sp.toNat, cycle := BitVec.ofNat 32 c.toNat })) }) ∧
  (∀ (p : MeasuredPeak) (s : State), exec (.peak18 p) s = .next { s with response := some (.ok (.peak p 18)) }) ∧
  (∀ (c : FilterConfig) (s : State), exec (.cfg40 c) s = .next { s with response := some (.ok (.cfg c 40)) })

/-- The strings of the status byte and of the envelope (R55 to R59, R62, R63) complete with their values or with
`InvalidDiscriminant`. That such a string is a transaction of its own is the model's choice (log 8). -/
def Obligations.StatusAndMessageStringsComplete : Prop :=
  (∀ s : State, exec .statStart s = .next { s with response := some (.ok (.stat .start 1)) }) ∧
  (∀ s : State, exec .statStop s = .next { s with response := some (.ok (.stat .stop 1)) }) ∧
  (∀ (x : Byte) (s : State), 2 ≤ x.toNat →
    exec (.statInvalid x) s = .next { s with response := some (.raised .invalidDiscriminant) }) ∧
  (∀ (peaks : List MeasuredPeak) (s : State), peaks.length < 2 ^ 64 →
    exec (.msgData peaks) s = .next { s with response := some (.ok (.msg (.data peaks) (9 + 18 * peaks.length))) }) ∧
  (∀ (x : Byte) (s : State),
    exec (.msgStatus x) s =
      .next { s with response := some (if x.toNat = 0 then .ok (.msg (.status .start) 2)
         else if x.toNat = 1 then .ok (.msg (.status .stop) 2)
         else .raised .invalidDiscriminant) }) ∧
  (∀ (c : FilterConfig) (s : State),
    exec (.msgConfig c) s = .next { s with response := some (.ok (.msg (.config c) 41)) }) ∧
  (∀ (x : Byte) (s : State), 3 ≤ x.toNat →
    exec (.msgInvalidTag x) s = .next { s with response := some (.raised .invalidDiscriminant) })

/-- A string handed over under its format is answered exactly as the operation that reads the format answers the same bytes,
whatever they are (log 8; R50, the table's "read by"). -/
def Obligations.WireStringsAreReadByTheirOperation : Prop :=
  ∀ (f : WireFormat) (bytes : Buffer) (s : State),
    step { s with pending := .wire f bytes :: s.pending } =
      step { s with pending := .request { Request.blank with op := f.reader, input := bytes } :: s.pending }

/-! ### Decoding and encoding -/

/-- Every well-formed instruction is decoded from its own encoding, at every value of every operand. -/
def Obligations.DecodeEncodeRoundTrip : Prop :=
  ∀ i : Instr, i.wellFormed = true → decode (encode i) = .ok i

/-- A wire string is the encoding of the instruction read from it, followed by bytes the reading left alone: no bit of an
encoding is dropped, and each string has one meaning (R64, R86, R92, R108, R132). -/
def Obligations.WireStringsHaveOneEncoding : Prop :=
  ∀ (f : WireFormat) (bytes : Buffer) (i : Instr), parseWire f bytes = some i →
    ∃ n, n ≤ bytes.length ∧ encode i = .wire f (bytes.take n)

/-- The decoder gives well-formed instructions only. -/
def Obligations.DecodeGivesWellFormed : Prop :=
  ∀ (p : Presented) (i : Instr), decode p = .ok i → i.wellFormed = true

/-- R11: fields an operation does not use are ignored by it. -/
def Obligations.UnusedRequestFieldsAreIgnored : Prop :=
  ∀ r q : Request, r.op = q.op →
    (r.op.toNat ≤ 2 → r.val = q.val) →
    (r.op.toNat ∈ [0x3, 0x4, 0x5, 0x6, 0x8, 0xA, 0xC, 0xE] → r.input = q.input) →
    (r.op.toNat = 0x7 → r.peak = q.peak) →
    (r.op.toNat = 0x9 → r.cfg = q.cfg) →
    (r.op.toNat = 0xB → r.stat = q.stat) →
    (r.op.toNat = 0xD → r.msg = q.msg) →
    decode (.request r) = decode (.request q)

/-- Words of the opcode table and of the spec's worked examples decode to the rows they stand for. How a word without an
operand is completed is the model's choice (log 15). -/
def Obligations.TableWordsDecode : Prop :=
  decodeTableWord 8 0x0 = some (.enc16 0) ∧
  decodeTableWord 8 0x3 = some (.dec16 0 0) ∧
  decodeTableWord 8 0xB = some (.statSer .start) ∧
  decodeTableWord 8 0xF = some .opFRefused ∧
  decodeTableWord 16 0xB303 = some (.be16 947) ∧
  decodeTableWord 32 0x47363703 = some (.be32 53950023) ∧
  decodeTableWord 16 0x0101 = some (.msgStatus 0x01) ∧
  decodeTableWord 96 0x3373647ECC9D560DC7864A8C = some (.packed12 59182041740 40278 947 53950023)

/-! ### The machine -/

/-- R38, R40: a step takes the oldest transaction and performs the instruction it decodes to, on the state without it. The
list of issued transactions is the model's form of the caller (log 1). -/
def Obligations.StepRunsTheDecodedInstruction : Prop :=
  ∀ (s : State) (p : Presented) (rest : List Presented) (i : Instr),
    s.pending = p :: rest → decode p = .ok i → step s = exec i { s with pending := rest }

/-- R40: a transaction issued while others wait does not overtake them: the next step is the one there was, with the new
transaction still waiting behind the others; with none waiting, the one issued is taken next. Keeping the issued transactions in a
list is the model's choice (log 1). -/
def Obligations.LaterTransactionsDoNotOvertake : Prop :=
  (∀ (s : State) (p : Presented), s.pending ≠ [] →
    (∀ t, step s = .next t → step (s.present p) = .next { t with pending := t.pending ++ [p] }) ∧
    (∀ x, step s = .refused x → step (s.present p) = .refused x)) ∧
  (∀ (s : State) (p : Presented), s.pending = [] → step (s.present p) = step { s with pending := [p] })

/-- With nothing presented a step changes nothing (log 2: the model's choice). -/
def Obligations.IdleStepChangesNothing : Prop :=
  ∀ s : State, s.pending = [] → step s = .next s

/-- R71: the `op` value 0xF names no operation, and a request with it is refused, whatever its other fields hold. -/
def Obligations.OpFIsRefused : Prop :=
  (∀ r : Request, r.op = 0xF → decode (.request r) = .ok .opFRefused) ∧
  (∀ s : State, exec .opFRefused s = .refused .noOperation) ∧
  (∀ (s : State) (r : Request) (rest : List Presented), r.op = 0xF → s.pending = .request r :: rest →
    step s = .refused .noOperation)

/-- R172: every transaction that can be presented completes in one step, leaving the later ones in place. -/
def Obligations.EveryTransactionCompletes : Prop :=
  ∀ (p : Presented) (i : Instr) (s : State) (rest : List Presented),
    decode p = .ok i → i ≠ .opFRefused → s.pending = p :: rest →
    ∃ t r, step s = .next t ∧ t.pending = rest ∧ t.response = some r

/-- No step ends in the outcome fault: every abnormal outcome is a response (R140, R146; log 4). -/
def Obligations.NoStepStopsWithAFault : Prop :=
  ∀ (s : State) (f : Fault), step s ≠ .fault f

/-- R10, R26, R147: what a step answers depends on the transaction it takes alone, not on earlier responses or faults. -/
def Obligations.NothingIsHeldBetweenTransactions : Prop :=
  ∀ (s u : State) (p : Presented) (rest later : List Presented),
    s.pending = p :: rest → u.pending = p :: later →
    (∀ t, step s = .next t → ∃ w, step u = .next w ∧ w.response = t.response ∧ w.pending = later ∧ t.pending = rest) ∧
    (∀ x, step s = .refused x → step u = .refused x)

/-- R38: repeating a transaction gives the same response and changes nothing more. -/
def Obligations.RepeatingATransactionIsIdempotent : Prop :=
  ∀ (p : Presented) (s t : State),
    step { s with pending := p :: s.pending } = .next t → step { t with pending := p :: t.pending } = .next t

/-- R25, R160, R161: after reset no response is there, nothing is pending and no fault is recorded, and the first transaction
answers as any later one (R161); a reset between two transactions changes nothing that the next one answers (R160). That no
response is held after a reset is the model's choice (log 3). -/
def Obligations.FirstTransactionAfterResetIsLikeAnyOther : Prop :=
  State.reset.response = none ∧ State.reset.pending = [] ∧ State.reset.runFault = none ∧
  ∀ (p : Presented) (s : State) (rest : List Presented), s.pending = p :: rest →
    (∀ t, step s = .next t → ∃ w, step { State.reset with pending := [p] } = .next w ∧ w.response = t.response) ∧
    (∀ x, step s = .refused x → step { State.reset with pending := [p] } = .refused x) ∧
    step s.resetBlock = step s

/-- R161: a transaction cut short by a reset produces no response and is not taken by any later step of its own; the next step is
that of the transactions left; and issued again it is answered as it would have been. That it is the oldest issued one that is
in progress is the model's form of it (log 24). -/
def Obligations.CutShortTransactionsMustBeReissued : Prop :=
  ∀ (s : State) (p : Presented) (rest : List Presented), s.pending = p :: rest →
    s.resetDuring.response = none ∧ s.resetDuring.pending = rest ∧ s.resetDuring.runFault = s.runFault ∧
    (∀ q later, rest = q :: later → step s.resetDuring = step { s with pending := rest }) ∧
    (rest = [] → step s.resetDuring = .next s.resetDuring ∧ step (s.resetDuring.present p) = step s)

/-- Every step keeps the invariant: the response held is one the spec allows, and a run whose response is `FLT` is recorded as
faulty (log 4, the model's choice). -/
def Obligations.StepKeepsInvariant : Prop :=
  ∀ s t : State, s.inv → step s = .next t → t.inv

/-- What the caller and a reset do keeps the invariant too: issuing a transaction, a reset between transactions (R160) and one
that cuts a transaction short (R161; log 24). -/
def Obligations.CallerAndResetKeepInvariant : Prop :=
  ∀ s : State, s.inv → (∀ p : Presented, (s.present p).inv) ∧ s.resetBlock.inv ∧ s.resetDuring.inv

/-- The invariant holds after reset. It rests on the model's own values at reset: no response, where the spec leaves the response
fields unspecified (log 3, log 12), and no fault of a run recorded (log 4). -/
def Obligations.ResetMeetsInvariant : Prop := State.reset.inv

/-- R162, R150: if the caller keeps the duties the block can see, every run of any length goes on and no `FLT` occurs; that a
`FLT` is recorded for the run is the model's choice (log 4). -/
def Obligations.DutifulCallersNeverFault : Prop :=
  ∀ (k : Nat) (s : State), (∀ p ∈ s.pending, p.dutiful = true) → s.good →
    ∃ t : State, Host.Core.run Sys2Proof.core k s = .next t ∧ t.good ∧ t.pending = s.pending.drop k
end

