-- ==== Sys2Proof/Laws/Operands.lean ====
section
/-!
SUPPORT. Laws of the byte codec: each decoder's value as a number, each encoder's bytes as quotients, that the two are inverse,
and reading a record back from where it was written.
-/

namespace Sys2Proof.Machine

/-! ### Buffers -/

@[simp] theorem byteAt_cons_zero (x : Byte) (l : Buffer) : byteAt (x :: l) 0 = x := rfl

@[simp] theorem byteAt_cons_succ (x : Byte) (l : Buffer) (i : Nat) : byteAt (x :: l) (i + 1) = byteAt l i := by
  simp [byteAt]

theorem byteAt_append_right (a b : Buffer) (i : Nat) : byteAt (a ++ b) (a.length + i) = byteAt b i := by
  simp only [byteAt, List.getD_eq_getElem?_getD]
  rw [List.getElem?_append_right (Nat.le_add_right _ _), Nat.add_sub_cancel_left]

theorem byteAt_append_left {a : Buffer} {i : Nat} (b : Buffer) (h : i < a.length) : byteAt (a ++ b) i = byteAt a i := by
  simp [byteAt, List.getD_eq_getElem?_getD, List.getElem?_append_left h]

theorem byteAt_take {b : Buffer} {n i : Nat} (h : i < n) : byteAt (b.take n) i = byteAt b i := by
  simp [byteAt, List.getD_eq_getElem?_getD, List.getElem?_take_of_lt h]

theorem byteAt_drop (b : Buffer) (n i : Nat) : byteAt (b.drop n) i = byteAt b (n + i) := by
  simp [byteAt, List.getD_eq_getElem?_getD, List.getElem?_drop]

/-- Inside the buffer, a read is the byte there and then the rest of the read (R33). -/
theorem memRead_succ {b : Buffer} {a n : Nat} (h : a < b.length) : memRead b a (n + 1) = byteAt b a :: memRead b (a + 1) n := by
  simp only [memRead, byteAt, List.getD_eq_getElem _ _ h]
  rw [List.drop_eq_getElem_cons h, List.take_succ_cons]

@[simp] theorem memRead_zero (b : Buffer) (a : Nat) : memRead b a 0 = [] := by simp [memRead]

/-- A read established to lie inside the buffer has its full length (R33). -/
theorem length_memRead {b : Buffer} {a n : Nat} (h : a + n ≤ b.length) : (memRead b a n).length = n := by
  simp [memRead]; omega

/-- The read of a whole buffer is the buffer. -/
theorem memRead_all {b : Buffer} {n : Nat} (h : b.length = n) : memRead b 0 n = b := by simp [memRead, ← h]

/-! ### Primitive integers -/

/-- Disjoint pieces: OR is addition (00_scope.md section 5.1). -/
theorem mul_two_pow_or {k y : Nat} (a : Nat) (h : y < 2 ^ k) : a * 2 ^ k ||| y = a * 2 ^ k + y := by
  rw [Nat.mul_comm, Nat.two_pow_add_eq_or_of_lt h]

theorem toNat_beDec16 (b0 b1 : Byte) : (beDec16 b0 b1).toNat = 256 * b0.toNat + b1.toNat := by
  have h0 := b0.isLt
  have h1 := b1.isLt
  simp only [beDec16, BitVec.toNat_or, BitVec.toNat_shiftLeft, BitVec.toNat_setWidth, Nat.shiftLeft_eq]
  rw [Nat.mod_eq_of_lt (by omega : b0.toNat < 2 ^ 16), Nat.mod_eq_of_lt (by omega : b1.toNat < 2 ^ 16),
    Nat.mod_eq_of_lt (by omega), mul_two_pow_or _ (by omega)]
  omega

theorem toNat_beDec32 (b0 b1 b2 b3 : Byte) :
    (beDec32 b0 b1 b2 b3).toNat = 256 * (256 * (256 * b0.toNat + b1.toNat) + b2.toNat) + b3.toNat := by
  have h0 := b0.isLt
  have h1 := b1.isLt
  have h2 := b2.isLt
  have h3 := b3.isLt
  simp only [beDec32, BitVec.toNat_or, BitVec.toNat_shiftLeft, BitVec.toNat_setWidth, Nat.shiftLeft_eq]
  rw [Nat.mod_eq_of_lt (by omega : b0.toNat < 2 ^ 32), Nat.mod_eq_of_lt (by omega : b1.toNat < 2 ^ 32),
    Nat.mod_eq_of_lt (by omega : b2.toNat < 2 ^ 32), Nat.mod_eq_of_lt (by omega : b3.toNat < 2 ^ 32),
    Nat.mod_eq_of_lt (by omega : b0.toNat * 2 ^ 24 < 2 ^ 32), Nat.mod_eq_of_lt (by omega : b1.toNat * 2 ^ 16 < 2 ^ 32),
    Nat.mod_eq_of_lt (by omega : b2.toNat * 2 ^ 8 < 2 ^ 32), mul_two_pow_or _ (by omega),
    show b0.toNat * 2 ^ 24 + b1.toNat * 2 ^ 16 = (256 * b0.toNat + b1.toNat) * 2 ^ 16 by omega, mul_two_pow_or _ (by omega),
    show (256 * b0.toNat + b1.toNat) * 2 ^ 16 + b2.toNat * 2 ^ 8
      = (256 * (256 * b0.toNat + b1.toNat) + b2.toNat) * 2 ^ 8 by omega, mul_two_pow_or _ (by omega)]
  omega

theorem toNat_beDec64 (b0 b1 b2 b3 b4 b5 b6 b7 : Byte) :
    (beDec64 b0 b1 b2 b3 b4 b5 b6 b7).toNat =
      256 * (256 * (256 * (256 * (256 * (256 * (256 * b0.toNat + b1.toNat) + b2.toNat) + b3.toNat) + b4.toNat)
        + b5.toNat) + b6.toNat) + b7.toNat := by
  have h0 := b0.isLt
  have h1 := b1.isLt
  have h2 := b2.isLt
  have h3 := b3.isLt
  have h4 := b4.isLt
  have h5 := b5.isLt
  have h6 := b6.isLt
  have h7 := b7.isLt
  simp only [beDec64, BitVec.toNat_or, BitVec.toNat_shiftLeft, BitVec.toNat_setWidth, Nat.shiftLeft_eq]
  generalize b0.toNat = x0 at *
  generalize b1.toNat = x1 at *
  generalize b2.toNat = x2 at *
  generalize b3.toNat = x3 at *
  generalize b4.toNat = x4 at *
  generalize b5.toNat = x5 at *
  generalize b6.toNat = x6 at *
  generalize b7.toNat = x7 at *
  rw [Nat.mod_eq_of_lt (by omega : x0 < 2 ^ 64), Nat.mod_eq_of_lt (by omega : x1 < 2 ^ 64),
    Nat.mod_eq_of_lt (by omega : x2 < 2 ^ 64), Nat.mod_eq_of_lt (by omega : x3 < 2 ^ 64),
    Nat.mod_eq_of_lt (by omega : x4 < 2 ^ 64), Nat.mod_eq_of_lt (by omega : x5 < 2 ^ 64),
    Nat.mod_eq_of_lt (by omega : x6 < 2 ^ 64), Nat.mod_eq_of_lt (by omega : x7 < 2 ^ 64),
    Nat.mod_eq_of_lt (by omega : x0 * 2 ^ 56 < 2 ^ 64), Nat.mod_eq_of_lt (by omega : x1 * 2 ^ 48 < 2 ^ 64),
    Nat.mod_eq_of_lt (by omega : x2 * 2 ^ 40 < 2 ^ 64), Nat.mod_eq_of_lt (by omega : x3 * 2 ^ 32 < 2 ^ 64),
    Nat.mod_eq_of_lt (by omega : x4 * 2 ^ 24 < 2 ^ 64), Nat.mod_eq_of_lt (by omega : x5 * 2 ^ 16 < 2 ^ 64),
    Nat.mod_eq_of_lt (by omega : x6 * 2 ^ 8 < 2 ^ 64),
    mul_two_pow_or _ (by omega),
    show x0 * 2 ^ 56 + x1 * 2 ^ 48 = (256 * x0 + x1) * 2 ^ 48 by omega, mul_two_pow_or _ (by omega),
    show (256 * x0 + x1) * 2 ^ 48 + x2 * 2 ^ 40 = (256 * (256 * x0 + x1) + x2) * 2 ^ 40 by omega,
    mul_two_pow_or _ (by omega)]
  generalize h : 256 * (256 * x0 + x1) + x2 = y2
  have : y2 < 2 ^ 24 := by omega
  rw [show y2 * 2 ^ 40 + x3 * 2 ^ 32 = (256 * y2 + x3) * 2 ^ 32 by omega, mul_two_pow_or _ (by omega),
    show (256 * y2 + x3) * 2 ^ 32 + x4 * 2 ^ 24 = (256 * (256 * y2 + x3) + x4) * 2 ^ 24 by omega,
    mul_two_pow_or _ (by omega)]
  generalize h' : 256 * (256 * y2 + x3) + x4 = y4
  have : y4 < 2 ^ 40 := by omega
  rw [show y4 * 2 ^ 24 + x5 * 2 ^ 16 = (256 * y4 + x5) * 2 ^ 16 by omega, mul_two_pow_or _ (by omega),
    show (256 * y4 + x5) * 2 ^ 16 + x6 * 2 ^ 8 = (256 * (256 * y4 + x5) + x6) * 2 ^ 8 by omega,
    mul_two_pow_or _ (by omega)]
  omega

theorem extractLsb'_byte {w : Nat} (v : BitVec w) (k : Nat) :
    v.extractLsb' k 8 = BitVec.ofNat 8 (v.toNat / 2 ^ k) := by
  apply BitVec.eq_of_toNat_eq
  simp [BitVec.extractLsb'_toNat, Nat.shiftRight_eq_div_pow]

@[simp] theorem length_beEnc16 (v : BitVec 16) : (beEnc16 v).length = 2 := rfl
@[simp] theorem length_beEnc32 (v : BitVec 32) : (beEnc32 v).length = 4 := rfl
@[simp] theorem length_beEnc64 (v : BitVec 64) : (beEnc64 v).length = 8 := rfl

/-- Encoding the number two bytes hold gives the bytes back (R86). -/
theorem beEnc16_beDec16 (b0 b1 : Byte) : beEnc16 (beDec16 b0 b1) = [b0, b1] := by
  have h0 := b0.isLt
  have h1 := b1.isLt
  simp only [beEnc16, extractLsb'_byte, toNat_beDec16, List.cons.injEq, and_true]
  refine ⟨?_, ?_⟩ <;> (apply BitVec.eq_of_toNat_eq; rw [BitVec.toNat_ofNat]; omega)

theorem beEnc32_beDec32 (b0 b1 b2 b3 : Byte) : beEnc32 (beDec32 b0 b1 b2 b3) = [b0, b1, b2, b3] := by
  have h0 := b0.isLt
  have h1 := b1.isLt
  have h2 := b2.isLt
  have h3 := b3.isLt
  simp only [beEnc32, extractLsb'_byte, toNat_beDec32, List.cons.injEq, and_true]
  refine ⟨?_, ?_, ?_, ?_⟩ <;> (apply BitVec.eq_of_toNat_eq; rw [BitVec.toNat_ofNat]; omega)

theorem beEnc64_beDec64 (b0 b1 b2 b3 b4 b5 b6 b7 : Byte) :
    beEnc64 (beDec64 b0 b1 b2 b3 b4 b5 b6 b7) = [b0, b1, b2, b3, b4, b5, b6, b7] := by
  have h0 := b0.isLt
  have h1 := b1.isLt
  have h2 := b2.isLt
  have h3 := b3.isLt
  have h4 := b4.isLt
  have h5 := b5.isLt
  have h6 := b6.isLt
  have h7 := b7.isLt
  simp only [beEnc64, extractLsb'_byte, toNat_beDec64, List.cons.injEq, and_true]
  refine ⟨?_, ?_, ?_, ?_, ?_, ?_, ?_, ?_⟩ <;> (apply BitVec.eq_of_toNat_eq; rw [BitVec.toNat_ofNat]; omega)

/-- Decoding the bytes of a 16-bit value gives the value back (R86). -/
@[simp] theorem beDec16_extract (v : BitVec 16) : beDec16 (v.extractLsb' 8 8) (v.extractLsb' 0 8) = v := by
  have h := v.isLt
  apply BitVec.eq_of_toNat_eq
  simp only [toNat_beDec16, extractLsb'_byte, BitVec.toNat_ofNat]
  omega

@[simp] theorem beDec32_extract (v : BitVec 32) :
    beDec32 (v.extractLsb' 24 8) (v.extractLsb' 16 8) (v.extractLsb' 8 8) (v.extractLsb' 0 8) = v := by
  have h := v.isLt
  apply BitVec.eq_of_toNat_eq
  simp only [toNat_beDec32, extractLsb'_byte, BitVec.toNat_ofNat]
  omega

@[simp] theorem beDec64_extract (v : BitVec 64) :
    beDec64 (v.extractLsb' 56 8) (v.extractLsb' 48 8) (v.extractLsb' 40 8) (v.extractLsb' 32 8)
      (v.extractLsb' 24 8) (v.extractLsb' 16 8) (v.extractLsb' 8 8) (v.extractLsb' 0 8) = v := by
  have h := v.isLt
  apply BitVec.eq_of_toNat_eq
  simp only [toNat_beDec64, extractLsb'_byte, BitVec.toNat_ofNat]
  omega

theorem be16At_beEnc16 (v : BitVec 16) (rest : Buffer) : be16At (beEnc16 v ++ rest) 0 = v := by
  simp only [be16At, beEnc16, List.cons_append, byteAt_cons_zero, byteAt_cons_succ, beDec16_extract]

theorem be32At_beEnc32 (v : BitVec 32) (rest : Buffer) : be32At (beEnc32 v ++ rest) 0 = v := by
  simp only [be32At, beEnc32, List.cons_append, byteAt_cons_zero, byteAt_cons_succ, beDec32_extract]

theorem be64At_beEnc64 (v : BitVec 64) (rest : Buffer) : be64At (beEnc64 v ++ rest) 0 = v := by
  simp only [be64At, beEnc64, List.cons_append, byteAt_cons_zero, byteAt_cons_succ, beDec64_extract]

/-! A field is read from a longer buffer at the offset where it stands (R35, R60). -/

theorem be16At_append (a b : Buffer) (i : Nat) : be16At (a ++ b) (a.length + i) = be16At b i := by
  simp only [be16At, Nat.add_assoc, byteAt_append_right]

theorem be32At_append (a b : Buffer) (i : Nat) : be32At (a ++ b) (a.length + i) = be32At b i := by
  simp only [be32At, Nat.add_assoc, byteAt_append_right]

theorem be64At_append (a b : Buffer) (i : Nat) : be64At (a ++ b) (a.length + i) = be64At b i := by
  simp only [be64At, Nat.add_assoc, byteAt_append_right]

/-! Encoding the field that stands at an offset gives the bytes there (R60). -/

theorem beEnc16_be16At {b : Buffer} {a : Nat} (h : a + 2 ≤ b.length) : beEnc16 (be16At b a) = memRead b a 2 := by
  rw [be16At, beEnc16_beDec16, memRead_succ (by omega), memRead_succ (by omega), memRead_zero]

theorem beEnc32_be32At {b : Buffer} {a : Nat} (h : a + 4 ≤ b.length) : beEnc32 (be32At b a) = memRead b a 4 := by
  rw [be32At, beEnc32_beDec32, memRead_succ (by omega), memRead_succ (by omega), memRead_succ (by omega),
    memRead_succ (by omega), memRead_zero]

theorem beEnc64_be64At {b : Buffer} {a : Nat} (h : a + 8 ≤ b.length) : beEnc64 (be64At b a) = memRead b a 8 := by
  rw [be64At, beEnc64_beDec64, memRead_succ (by omega), memRead_succ (by omega), memRead_succ (by omega),
    memRead_succ (by omega), memRead_succ (by omega), memRead_succ (by omega), memRead_succ (by omega),
    memRead_succ (by omega), memRead_zero]

@[simp] theorem beEnc_w16 (v : BitVec 16) : beEnc .w16 v = beEnc16 v := rfl
@[simp] theorem beEnc_w32 (v : BitVec 32) : beEnc .w32 v = beEnc32 v := rfl
@[simp] theorem beEnc_w64 (v : BitVec 64) : beEnc .w64 v = beEnc64 v := rfl

@[simp] theorem beDec_w16 (b0 b1 : Byte) : beDec .w16 [b0, b1] = beDec16 b0 b1 := rfl
@[simp] theorem beDec_w32 (b0 b1 b2 b3 : Byte) : beDec .w32 [b0, b1, b2, b3] = beDec32 b0 b1 b2 b3 := rfl
@[simp] theorem beDec_w64 (b0 b1 b2 b3 b4 b5 b6 b7 : Byte) :
    beDec .w64 [b0, b1, b2, b3, b4, b5, b6, b7] = beDec64 b0 b1 b2 b3 b4 b5 b6 b7 := rfl

/-- The law of R86 at every width. -/
theorem primRoundTrip_holds (w : PrimWidth) : PrimRoundTrip w := by
  cases w with
  | w16 => exact ⟨fun v => be16At_beEnc16 v [],
      fun b hb => (beEnc16_be16At (Nat.le_of_eq hb.symm)).trans (memRead_all hb)⟩
  | w32 => exact ⟨fun v => be32At_beEnc32 v [],
      fun b hb => (beEnc32_be32At (Nat.le_of_eq hb.symm)).trans (memRead_all hb)⟩
  | w64 => exact ⟨fun v => be64At_beEnc64 v [],
      fun b hb => (beEnc64_be64At (Nat.le_of_eq hb.symm)).trans (memRead_all hb)⟩

/-! ### Records -/

@[simp] theorem length_peak18Bytes (p : MeasuredPeak) : (peak18Bytes p).length = 18 := by simp [peak18Bytes]

@[simp] theorem length_cfg40Bytes (c : FilterConfig) : (cfg40Bytes c).length = 40 := by simp [cfg40Bytes]

theorem memRead_add (b : Buffer) (a m n : Nat) : memRead b a (m + n) = memRead b a m ++ memRead b (a + m) n := by
  simp [memRead, List.take_add]

theorem peak18At_append (a b : Buffer) (i : Nat) : peak18At (a ++ b) (a.length + i) = peak18At b i := by
  simp only [peak18At, Nat.add_assoc, be64At_append, be32At_append, be16At_append]

theorem cfg40At_append (a b : Buffer) (i : Nat) : cfg40At (a ++ b) (a.length + i) = cfg40At b i := by
  simp only [cfg40At, Nat.add_assoc, be64At_append]

/-- The record written is the record read, whatever follows it (R100, R101). -/
theorem peak18At_peak18Bytes (p : MeasuredPeak) (rest : Buffer) : peak18At (peak18Bytes p ++ rest) 0 = p := by
  have h8 := be32At_append (beEnc64 p.timestamp) (beEnc32 p.peakHeight ++ (beEnc16 p.speed ++ (beEnc32 p.cycle ++ rest))) 0
  have h12 := be16At_append (beEnc64 p.timestamp ++ beEnc32 p.peakHeight) (beEnc16 p.speed ++ (beEnc32 p.cycle ++ rest)) 0
  have h14 := be32At_append (beEnc64 p.timestamp ++ beEnc32 p.peakHeight ++ beEnc16 p.speed) (beEnc32 p.cycle ++ rest) 0
  simp only [List.append_assoc, List.length_append, length_beEnc64, length_beEnc32, length_beEnc16, Nat.reduceAdd,
    Nat.add_zero, be32At_beEnc32, be16At_beEnc16] at h8 h12 h14
  simp only [peak18At, peak18Bytes, List.append_assoc, be64At_beEnc64, Nat.zero_add, h8, h12, h14]

theorem cfg40At_cfg40Bytes (c : FilterConfig) (rest : Buffer) : cfg40At (cfg40Bytes c ++ rest) 0 = c := by
  have h8 := be64At_append (beEnc64 c.pthresh)
    (beEnc64 c.tdead ++ (beEnc64 c.k ++ (beEnc64 c.l ++ (beEnc64 c.m ++ rest)))) 0
  have h16 := be64At_append (beEnc64 c.pthresh ++ beEnc64 c.tdead)
    (beEnc64 c.k ++ (beEnc64 c.l ++ (beEnc64 c.m ++ rest))) 0
  have h24 := be64At_append (beEnc64 c.pthresh ++ beEnc64 c.tdead ++ beEnc64 c.k)
    (beEnc64 c.l ++ (beEnc64 c.m ++ rest)) 0
  have h32 := be64At_append (beEnc64 c.pthresh ++ beEnc64 c.tdead ++ beEnc64 c.k ++ beEnc64 c.l) (beEnc64 c.m ++ rest) 0
  simp only [List.append_assoc, List.length_append, length_beEnc64, Nat.reduceAdd, Nat.add_zero, be64At_beEnc64]
    at h8 h16 h24 h32
  simp only [cfg40At, cfg40Bytes, List.append_assoc, be64At_beEnc64, Nat.zero_add, h8, h16, h24, h32]

/-- The bytes of the record that stands at an offset are the bytes there (R100, R101). -/
theorem peak18Bytes_peak18At {b : Buffer} {a : Nat} (h : a + 18 ≤ b.length) :
    peak18Bytes (peak18At b a) = memRead b a 18 := by
  simp only [peak18Bytes, peak18At]
  rw [beEnc64_be64At (by omega), beEnc32_be32At (by omega), beEnc16_be16At (by omega), beEnc32_be32At (by omega)]
  rw [show 18 = 8 + 4 + 2 + 4 from rfl, memRead_add, memRead_add, memRead_add]

theorem cfg40Bytes_cfg40At {b : Buffer} {a : Nat} (h : a + 40 ≤ b.length) :
    cfg40Bytes (cfg40At b a) = memRead b a 40 := by
  simp only [cfg40Bytes, cfg40At]
  rw [beEnc64_be64At (by omega), beEnc64_be64At (by omega), beEnc64_be64At (by omega), beEnc64_be64At (by omega),
    beEnc64_be64At (by omega)]
  rw [show 40 = 8 + 8 + 8 + 8 + 8 from rfl, memRead_add, memRead_add, memRead_add, memRead_add]

@[simp] theorem length_peaks18At (b : Buffer) (a n : Nat) : (peaks18At b a n).length = n := by
  induction n generalizing a with
  | zero => rfl
  | succ n ih => simp [peaks18At, ih]

/-- Peaks written one after another are read back in order, whatever stands before and after them (R57, R121, R125). -/
theorem peaks18At_flatMap (ps : List MeasuredPeak) (a rest : Buffer) :
    peaks18At (a ++ (ps.flatMap peak18Bytes ++ rest)) a.length ps.length = ps := by
  induction ps generalizing a with
  | nil => rfl
  | cons p ps ih =>
    have hp := peak18At_append a (peak18Bytes p ++ (ps.flatMap peak18Bytes ++ rest)) 0
    have ht := ih (a ++ peak18Bytes p)
    simp only [Nat.add_zero, peak18At_peak18Bytes] at hp
    simp only [List.length_append, length_peak18Bytes, List.append_assoc] at ht
    simp only [List.flatMap_cons, List.append_assoc, List.length_cons, peaks18At, Config.peakLen, hp, ht]

/-- The bytes of the peaks that stand from an offset on are the bytes there (R57). -/
theorem flatMap_peaks18At {b : Buffer} {a n : Nat} (h : a + 18 * n ≤ b.length) :
    (peaks18At b a n).flatMap peak18Bytes = memRead b a (18 * n) := by
  induction n generalizing a with
  | zero => simp [peaks18At]
  | succ n ih =>
    rw [peaks18At, List.flatMap_cons, peak18Bytes_peak18At (by omega), Config.peakLen, ih (by omega),
      show 18 * (n + 1) = 18 + 18 * n by omega, memRead_add]

theorem length_flatMap_peak18Bytes (ps : List MeasuredPeak) : (ps.flatMap peak18Bytes).length = 18 * ps.length := by
  induction ps with
  | nil => rfl
  | cons p ps ih => simp only [List.flatMap_cons, List.length_append, length_peak18Bytes, ih, List.length_cons]; omega

/-- A message's encoding has the message's length (R131). -/
theorem length_msgBytes (m : Message) : (msgBytes m).length = msgLen m := by
  cases m with
  | data ps =>
    simp only [msgBytes, msgLen, List.length_cons, List.length_append, length_beEnc64, length_flatMap_peak18Bytes,
      Config.dataHdrLen, Config.peakLen]
    omega
  | status s => rfl
  | config c => simp [msgBytes, msgLen, Config.msgConfigLen]

end Sys2Proof.Machine
end

