-- ==== Sys2Proof/Laws/Message.lean ====
section
/-!
SUPPORT. What the envelope's decode is on each kind of buffer, one lemma per test of R124.
-/

namespace Sys2Proof.Machine

theorem statOfByte_eq (x : Byte) :
    statOfByte x = if x.toNat = 0 then some .start else if x.toNat = 1 then some .stop else none := by
  have h0 : x = 0x00 ↔ x.toNat = 0 := ⟨fun h => by rw [h]; rfl, fun h => BitVec.eq_of_toNat_eq h⟩
  have h1 : x = 0x01 ↔ x.toNat = 1 := ⟨fun h => by rw [h]; rfl, fun h => BitVec.eq_of_toNat_eq h⟩
  simp only [statOfByte, h0, h1]

@[simp] theorem statOfByte_statByte (st : Status) : statOfByte (statByte st) = some st := by cases st <;> rfl

theorem msgDes_data (rest : Buffer) : msgDes (tagData :: rest) = dataDes (tagData :: rest) := rfl

theorem msgDes_status (rest : Buffer) : msgDes (tagStatus :: rest) = statusDes (tagStatus :: rest) := rfl

theorem msgDes_config (rest : Buffer) : msgDes (tagConfig :: rest) = configDes (tagConfig :: rest) := rfl

/-- A tag above 2 is none of the three (R62). -/
theorem tag_cases (x : Byte) : x = tagData ∨ x = tagStatus ∨ x = tagConfig ∨ 3 ≤ x.toNat := by
  have hx := x.isLt
  rcases Nat.lt_or_ge x.toNat 3 with h | h
  · have : x.toNat = 0 ∨ x.toNat = 1 ∨ x.toNat = 2 := by omega
    rcases this with h | h | h
    · exact .inl (BitVec.eq_of_toNat_eq h)
    · exact .inr (.inl (BitVec.eq_of_toNat_eq h))
    · exact .inr (.inr (.inl (BitVec.eq_of_toNat_eq h)))
  · exact .inr (.inr (.inr h))

theorem tag_ne_of_three_le {x : Byte} (h : 3 ≤ x.toNat) : x ≠ tagData ∧ x ≠ tagStatus ∧ x ≠ tagConfig := by
  refine ⟨?_, ?_, ?_⟩ <;> (rintro rfl; revert h; decide)

theorem msgDes_other {x : Byte} (h : 3 ≤ x.toNat) (rest : Buffer) : msgDes (x :: rest) = .raised .invalidDiscriminant := by
  obtain ⟨h0, h1, h2⟩ := tag_ne_of_three_le h
  simp [msgDes, h0, h1, h2]

/-- The decode of a message's encoding, whatever follows it (R132). -/
theorem msgDes_msgBytes (m : Message) (h : m.presentable = true) (rest : Buffer) :
    msgDes (msgBytes m ++ rest) = .ok m (msgLen m) := by
  cases m with
  | status st =>
    simp only [msgBytes, List.cons_append, List.nil_append, msgDes_status, statusDes, List.length_cons, Config.msgStatusLen]
    simp [statDecoded, msgLen, Config.msgStatusLen]
  | config c =>
    have hc := cfg40At_append [tagConfig] (cfg40Bytes c ++ rest) 0
    rw [cfg40At_cfg40Bytes] at hc
    simp only [List.length_cons, List.length_nil, Nat.zero_add, Nat.add_zero, List.cons_append, List.nil_append] at hc
    simp only [msgBytes, List.cons_append, msgDes_config, configDes, desFixed, hc, List.length_cons, List.length_append,
      length_cfg40Bytes, Config.msgConfigLen]
    simp [msgLen, Config.msgConfigLen, show ¬ 40 + rest.length + 1 < 41 by omega]
  | data ps =>
    have hn : ps.length < 2 ^ 64 := by
      simp only [Message.presentable, Config.maxPeaks, decide_eq_true_eq] at h; omega
    have hcount := be64At_append [tagData] (beEnc64 (BitVec.ofNat 64 ps.length) ++ (ps.flatMap peak18Bytes ++ rest)) 0
    rw [be64At_beEnc64] at hcount
    have hps := peaks18At_flatMap ps (tagData :: beEnc64 (BitVec.ofNat 64 ps.length)) rest
    simp only [List.length_cons, List.length_nil, Nat.zero_add, Nat.add_zero, List.cons_append, List.nil_append,
      length_beEnc64, Nat.reduceAdd] at hcount hps
    simp only [msgBytes, List.cons_append, List.append_assoc, msgDes_data, dataDes, hcount, BitVec.toNat_ofNat,
      Nat.mod_eq_of_lt hn, Config.dataHdrLen, hps, List.length_cons, List.length_append, length_beEnc64,
      length_flatMap_peak18Bytes, Config.peakLen, msgLen]
    rw [if_neg (by omega), if_neg (by omega)]

/-- What a success of the decode says of the buffer: it holds the message's encoding and then bytes that do not matter
(R129, R132). -/
theorem msgDes_ok {b : Buffer} {m : Message} {c : Nat} (h : msgDes b = .ok m c) :
    c = msgLen m ∧ c ≤ b.length ∧ m.presentable = true ∧ msgBytes m = b.take c := by
  cases b with
  | nil => simp [msgDes] at h
  | cons x rest =>
    rcases tag_cases x with rfl | rfl | rfl | hx
    · rw [msgDes_data] at h
      simp only [dataDes, Config.dataHdrLen, Config.peakLen] at h
      by_cases h9 : (tagData :: rest).length < 9
      · rw [if_pos h9] at h; cases h
      · rw [if_neg h9] at h
        by_cases hneed : (tagData :: rest).length - 9 < (be64At (tagData :: rest) 1).toNat * 18
        · rw [if_pos hneed] at h; cases h
        · rw [if_neg hneed] at h
          simp only [Decoded.ok.injEq] at h
          obtain ⟨rfl, rfl⟩ := h
          have hlt := (be64At (tagData :: rest) 1).isLt
          have hcnt := beEnc64_be64At (b := tagData :: rest) (a := 1) (by omega)
          refine ⟨by simp [msgLen, Config.dataHdrLen, Config.peakLen], by omega, ?_, ?_⟩
          · simp only [Message.presentable, Config.maxPeaks, decide_eq_true_eq, length_peaks18At]; omega
          · have h0 := memRead_add (tagData :: rest) 0 9 (18 * (be64At (tagData :: rest) 1).toNat)
            have h1 := memRead_add (tagData :: rest) 0 1 8
            have h2 : memRead (tagData :: rest) 0 1 = [tagData] := rfl
            simp only [Nat.zero_add, Nat.reduceAdd, h2] at h0 h1
            simp only [msgBytes, length_peaks18At, BitVec.ofNat_toNat, BitVec.setWidth_eq, hcnt]
            rw [flatMap_peaks18At (by omega), ← List.cons_append, ← List.singleton_append, ← h1, ← h0]
            simp [memRead]
    · rw [msgDes_status] at h
      cases rest with
      | nil => simp [statusDes, Config.msgStatusLen] at h
      | cons y rest =>
        have hlen : ¬ (tagStatus :: y :: rest).length < 2 := by simp
        simp only [statusDes, statDecoded, Config.msgStatusLen, if_neg hlen, byteAt_cons_succ, byteAt_cons_zero,
          statOfByte_eq] at h
        by_cases y0 : y.toNat = 0
        · simp only [y0, if_true, Decoded.ok.injEq] at h
          obtain ⟨rfl, rfl⟩ := h
          refine ⟨rfl, by simp, rfl, ?_⟩
          simp only [msgBytes, statByte, List.take_succ_cons, List.take_zero, List.cons.injEq, true_and, and_true]
          exact (BitVec.eq_of_toNat_eq y0).symm
        · by_cases y1 : y.toNat = 1
          · simp only [y1, Nat.one_ne_zero, if_false, if_true, Decoded.ok.injEq] at h
            obtain ⟨rfl, rfl⟩ := h
            refine ⟨rfl, by simp, rfl, ?_⟩
            simp only [msgBytes, statByte, List.take_succ_cons, List.take_zero, List.cons.injEq, true_and, and_true]
            exact (BitVec.eq_of_toNat_eq y1).symm
          · simp [y0, y1] at h
    · rw [msgDes_config] at h
      simp only [configDes, desFixed, Config.msgConfigLen] at h
      by_cases h41 : (tagConfig :: rest).length < 41
      · rw [if_pos h41] at h; cases h
      · rw [if_neg h41] at h
        simp only [Decoded.ok.injEq] at h
        obtain ⟨rfl, rfl⟩ := h
        refine ⟨rfl, by omega, rfl, ?_⟩
        simp only [msgBytes]
        rw [cfg40Bytes_cfg40At (by omega)]
        simp [memRead]
    · rw [msgDes_other hx] at h; cases h

end Sys2Proof.Machine
end

