-- ==== Sys2Proof/Laws/Packed.lean ====
section
/-!
SUPPORT. Laws of the sensor-native record: every field as a number, in the form of R91 and in the word view of R52 and R96.
-/

namespace Sys2Proof.Machine

/-- ORing a piece above a value that ends below it adds it. -/
theorem toNat_or_shiftLeft {w m : Nat} (v : BitVec w) (x : BitVec m) (k : Nat) (hv : v.toNat < 2 ^ k) (hk : k + m ≤ w) :
    (v ||| (x.setWidth w <<< k)).toNat = v.toNat + 2 ^ k * x.toNat := by
  have hx := x.isLt
  have hm : 2 ^ m ≤ 2 ^ w := Nat.pow_le_pow_right (by decide) (by omega)
  have hb : 2 ^ k * x.toNat < 2 ^ w := by
    calc 2 ^ k * x.toNat < 2 ^ k * 2 ^ m := Nat.mul_lt_mul_of_pos_left hx (Nat.two_pow_pos k)
      _ = 2 ^ (k + m) := (Nat.pow_add _ _ _).symm
      _ ≤ 2 ^ w := Nat.pow_le_pow_right (by decide) hk
  rw [BitVec.toNat_or, BitVec.toNat_shiftLeft, BitVec.toNat_setWidth, Nat.mod_eq_of_lt (Nat.lt_of_lt_of_le hx hm),
    Nat.shiftLeft_eq, Nat.mul_comm, Nat.mod_eq_of_lt hb, Nat.or_comm, ← Nat.two_pow_add_eq_or_of_lt hv, Nat.add_comm]

/-- The low bits of a byte, taken by a mask of `k` ones. -/
theorem toNat_and_mask {w : Nat} (x : BitVec w) (k : Nat) (m : BitVec w) (hm : m.toNat = 2 ^ k - 1) :
    (x &&& m).toNat = x.toNat % 2 ^ k := by
  rw [BitVec.toNat_and, hm, Nat.and_two_pow_sub_one_eq_mod]

/-- `timestamp` of R91 as a number. -/
theorem toNat_packed_timestamp (b : Buffer) :
    (packed12Peak b).timestamp.toNat =
      (byteAt b 0).toNat + 2 ^ 8 * (byteAt b 1).toNat + 2 ^ 16 * (byteAt b 2).toNat + 2 ^ 24 * (byteAt b 3).toNat
        + 2 ^ 32 * (byteAt b 4).toNat := by
  have h0 := (byteAt b 0).isLt
  have h1 := (byteAt b 1).isLt
  have h2 := (byteAt b 2).isLt
  have h3 := (byteAt b 3).isLt
  have e0 : ((byteAt b 0).setWidth 64).toNat = (byteAt b 0).toNat := by
    rw [BitVec.toNat_setWidth]; exact Nat.mod_eq_of_lt (by omega)
  have e1 := toNat_or_shiftLeft ((byteAt b 0).setWidth 64) (byteAt b 1) 8 (by omega) (by omega)
  have e2 := toNat_or_shiftLeft _ (byteAt b 2) 16 (by rw [e1]; omega) (by omega : 16 + 8 ≤ 64)
  have e3 := toNat_or_shiftLeft _ (byteAt b 3) 24 (by rw [e2, e1]; omega) (by omega : 24 + 8 ≤ 64)
  have e4 := toNat_or_shiftLeft _ (byteAt b 4) 32 (by rw [e3, e2, e1]; omega) (by omega : 32 + 8 ≤ 64)
  simp only [packed12Peak]
  rw [e4, e3, e2, e1, e0]

/-- `cycle` of R91 as a number. -/
theorem toNat_packed_cycle (b : Buffer) :
    (packed12Peak b).cycle.toNat =
      (byteAt b 5).toNat + 2 ^ 8 * (byteAt b 6).toNat + 2 ^ 16 * ((byteAt b 7).toNat % 4) := by
  have h5 := (byteAt b 5).isLt
  have h6 := (byteAt b 6).isLt
  have e0 : ((byteAt b 5).setWidth 32).toNat = (byteAt b 5).toNat := by
    rw [BitVec.toNat_setWidth]; exact Nat.mod_eq_of_lt (by omega)
  have e1 := toNat_or_shiftLeft ((byteAt b 5).setWidth 32) (byteAt b 6) 8 (by omega) (by omega)
  have e2 := toNat_or_shiftLeft _ (byteAt b 7 &&& 0x03) 16 (by rw [e1]; omega) (by omega : 16 + 8 ≤ 32)
  simp only [packed12Peak]
  rw [e2, e1, e0, toNat_and_mask _ 2 _ (by decide)]
  rfl

/-- `speed` of R91 as a number. -/
theorem toNat_packed_speed (b : Buffer) :
    (packed12Peak b).speed.toNat = (byteAt b 7).toNat / 4 + 2 ^ 6 * ((byteAt b 8).toNat % 16) := by
  have h7 := (byteAt b 7).isLt
  have e0 : ((byteAt b 7 >>> 2).setWidth 16).toNat = (byteAt b 7).toNat / 4 := by
    rw [BitVec.toNat_setWidth, BitVec.toNat_ushiftRight, Nat.shiftRight_eq_div_pow]; exact Nat.mod_eq_of_lt (by omega)
  have e1 := toNat_or_shiftLeft ((byteAt b 7 >>> 2).setWidth 16) (byteAt b 8 &&& 0x0F) 6 (by omega) (by omega)
  simp only [packed12Peak]
  rw [e1, e0, toNat_and_mask _ 4 _ (by decide)]
  rfl

/-- `peak_height` of R91 as a number. -/
theorem toNat_packed_peakHeight (b : Buffer) :
    (packed12Peak b).peakHeight.toNat =
      (byteAt b 8).toNat / 16 + 2 ^ 4 * (byteAt b 9).toNat + 2 ^ 12 * (byteAt b 10).toNat + 2 ^ 20 * (byteAt b 11).toNat := by
  have h8 := (byteAt b 8).isLt
  have h9 := (byteAt b 9).isLt
  have h10 := (byteAt b 10).isLt
  have e0 : ((byteAt b 8 >>> 4).setWidth 32).toNat = (byteAt b 8).toNat / 16 := by
    rw [BitVec.toNat_setWidth, BitVec.toNat_ushiftRight, Nat.shiftRight_eq_div_pow]; exact Nat.mod_eq_of_lt (by omega)
  have e1 := toNat_or_shiftLeft ((byteAt b 8 >>> 4).setWidth 32) (byteAt b 9) 4 (by omega) (by omega)
  have e2 := toNat_or_shiftLeft _ (byteAt b 10) 12 (by rw [e1]; omega) (by omega : 12 + 8 ≤ 32)
  have e3 := toNat_or_shiftLeft _ (byteAt b 11) 20 (by rw [e2, e1]; omega) (by omega : 20 + 8 ≤ 32)
  simp only [packed12Peak]
  rw [e3, e2, e1, e0]

/-- The 96-bit little-endian word of R52 as a number. -/
theorem toNat_packedWord (b : Buffer) :
    (packedWord b).toNat =
      (byteAt b 0).toNat + 2 ^ 8 * (byteAt b 1).toNat + 2 ^ 16 * (byteAt b 2).toNat + 2 ^ 24 * (byteAt b 3).toNat
        + 2 ^ 32 * (byteAt b 4).toNat + 2 ^ 40 * (byteAt b 5).toNat + 2 ^ 48 * (byteAt b 6).toNat
        + 2 ^ 56 * (byteAt b 7).toNat + 2 ^ 64 * (byteAt b 8).toNat + 2 ^ 72 * (byteAt b 9).toNat
        + 2 ^ 80 * (byteAt b 10).toNat + 2 ^ 88 * (byteAt b 11).toNat := by
  have h (w : BitVec 96) (i : Nat) (hi : i < 12) (hw : w.toNat < 2 ^ (8 * i)) :
      (w ||| ((byteAt b i).setWidth 96 <<< (8 * i))).toNat = w.toNat + 2 ^ (8 * i) * (byteAt b i).toNat :=
    toNat_or_shiftLeft w (byteAt b i) (8 * i) hw (by omega)
  have hb (i : Nat) := (byteAt b i).isLt
  have h0 := hb 0
  have h1 := hb 1
  have h2 := hb 2
  have h3 := hb 3
  have h4 := hb 4
  have h5 := hb 5
  have h6 := hb 6
  have h7 := hb 7
  have h8 := hb 8
  have h9 := hb 9
  have h10 := hb 10
  simp only [packedWord, show List.range 12 = [0, 1, 2, 3, 4, 5, 6, 7, 8, 9, 10, 11] from rfl, List.foldl_cons, List.foldl_nil]
  have e0 := h 0 0 (by omega) (by decide)
  have e1 := h _ 1 (by omega) (by rw [e0]; simp; omega)
  have e2 := h _ 2 (by omega) (by rw [e1, e0]; simp; omega)
  have e3 := h _ 3 (by omega) (by rw [e2, e1, e0]; simp; omega)
  have e4 := h _ 4 (by omega) (by rw [e3, e2, e1, e0]; simp; omega)
  have e5 := h _ 5 (by omega) (by rw [e4, e3, e2, e1, e0]; simp; omega)
  have e6 := h _ 6 (by omega) (by rw [e5, e4, e3, e2, e1, e0]; simp; omega)
  have e7 := h _ 7 (by omega) (by rw [e6, e5, e4, e3, e2, e1, e0]; simp; omega)
  have e8 := h _ 8 (by omega) (by rw [e7, e6, e5, e4, e3, e2, e1, e0]; simp; omega)
  have e9 := h _ 9 (by omega) (by rw [e8, e7, e6, e5, e4, e3, e2, e1, e0]; simp; omega)
  have e10 := h _ 10 (by omega) (by rw [e9, e8, e7, e6, e5, e4, e3, e2, e1, e0]; simp; omega)
  have e11 := h _ 11 (by omega) (by rw [e10, e9, e8, e7, e6, e5, e4, e3, e2, e1, e0]; simp; omega)
  rw [e11, e10, e9, e8, e7, e6, e5, e4, e3, e2, e1, e0]
  simp

/-- `read(O, N)` as a number: the `n` bits from bit `o` on. -/
theorem toNat_packedRead (b : Buffer) (o n : Nat) : (packedRead b o n).toNat = (packedWord b).toNat / 2 ^ o % 2 ^ n := by
  simp [packedRead, BitVec.extractLsb'_toNat, Nat.shiftRight_eq_div_pow]

@[simp] theorem length_packed12Bytes (t : BitVec 40) (c : BitVec 18) (s : BitVec 10) (h : BitVec 28) :
    (packed12Bytes t c s h).length = 12 := by simp [packed12Bytes]

/-- The word four packed fields make: 40 + 18 + 10 + 28 = 96 bits without a gap (R52). -/
theorem toNat_packedWord_packed12Bytes (t : BitVec 40) (c : BitVec 18) (s : BitVec 10) (h : BitVec 28) :
    (packedWord (packed12Bytes t c s h)).toNat = t.toNat + 2 ^ 40 * c.toNat + 2 ^ 58 * s.toNat + 2 ^ 68 * h.toNat := by
  have ht := t.isLt
  have hc := c.isLt
  have hs := s.isLt
  have hh := h.isLt
  have e0 : (t.setWidth 96).toNat = t.toNat := by rw [BitVec.toNat_setWidth]; exact Nat.mod_eq_of_lt (by omega)
  have e1 := toNat_or_shiftLeft (t.setWidth 96) c 40 (by omega) (by omega)
  have e2 := toNat_or_shiftLeft _ s 58 (by rw [e1]; omega) (by omega : 58 + 10 ≤ 96)
  have e3 := toNat_or_shiftLeft _ h 68 (by rw [e2, e1]; omega) (by omega : 68 + 28 ≤ 96)
  rw [e2, e1, e0] at e3
  rw [← e3]
  generalize hw : (t.setWidth 96 ||| (c.setWidth 96 <<< 40) ||| (s.setWidth 96 <<< 58) ||| (h.setWidth 96 <<< 68)) = w
  have hb (i : Nat) (hi : i < 12) : (byteAt (packed12Bytes t c s h) i).toNat = w.toNat / 2 ^ (8 * i) % 256 := by
    have hr : (List.range 12)[i]? = some i := by simp [hi]
    simp [byteAt, packed12Bytes, List.getD_eq_getElem?_getD, hr, hw, BitVec.extractLsb'_toNat, Nat.shiftRight_eq_div_pow]
  have hlt := w.isLt
  rw [toNat_packedWord, hb 0 (by omega), hb 1 (by omega), hb 2 (by omega), hb 3 (by omega), hb 4 (by omega), hb 5 (by omega),
    hb 6 (by omega), hb 7 (by omega), hb 8 (by omega), hb 9 (by omega), hb 10 (by omega), hb 11 (by omega)]
  omega

end Sys2Proof.Machine
end

