-- ==== Sys2Proof/Laws/PerInstr.lean ====
section
/-!
SUPPORT. Facts about every instruction as syntax, one lemma per constructor. Family RowForm: an instruction is presented in the
form its row of the opcode table has, an operation under its `op` code (R70), a wire string under its format (R50).
-/

namespace Sys2Proof.Laws.RowForm

open Sys2Proof

/-- The form a transaction has: a request under an `op` code, or a string of a format. -/
def presentedForm : Presented → BitVec 4 ⊕ WireFormat
  | .request r => .inl r.op
  | .wire f _ => .inr f

/-- The form of an instruction's row in spec/opcode_table.json. -/
def rowForm : Instr → BitVec 4 ⊕ WireFormat
  | .enc16 _ => .inl 0x0
  | .enc32 _ => .inl 0x1
  | .enc64 _ => .inl 0x2
  | .dec16 _ _ => .inl 0x3
  | .dec32 _ _ _ _ => .inl 0x4
  | .dec64 _ _ _ _ _ _ _ _ => .inl 0x5
  | .unpackPeak _ => .inl 0x6
  | .peakSer _ => .inl 0x7
  | .peakDes _ => .inl 0x8
  | .cfgSer _ => .inl 0x9
  | .cfgDes _ => .inl 0xA
  | .statSer _ => .inl 0xB
  | .statDes _ => .inl 0xC
  | .msgSer _ => .inl 0xD
  | .msgDes _ => .inl 0xE
  | .opFRefused => .inl 0xF
  | .be16 _ => .inr .be16
  | .be32 _ => .inr .be32
  | .be64 _ => .inr .be64
  | .packed12 _ _ _ _ => .inr .packed12
  | .peak18 _ => .inr .peak18
  | .cfg40 _ => .inr .cfg40
  | .statStart => .inr .stat1
  | .statStop => .inr .stat1
  | .statInvalid _ => .inr .stat1
  | .msgData _ => .inr .msg
  | .msgStatus _ => .inr .msg
  | .msgConfig _ => .inr .msg
  | .msgInvalidTag _ => .inr .msg

/-- The encoder presents an instruction in its row's form. -/
def Statement (i : Instr) : Prop := presentedForm (encode i) = rowForm i

theorem enc16 (val : BitVec 16) : Statement (.enc16 val) := rfl
theorem enc32 (val : BitVec 32) : Statement (.enc32 val) := rfl
theorem enc64 (val : BitVec 64) : Statement (.enc64 val) := rfl
theorem dec16 (b0 b1 : Byte) : Statement (.dec16 b0 b1) := rfl
theorem dec32 (b0 b1 b2 b3 : Byte) : Statement (.dec32 b0 b1 b2 b3) := rfl
theorem dec64 (b0 b1 b2 b3 b4 b5 b6 b7 : Byte) : Statement (.dec64 b0 b1 b2 b3 b4 b5 b6 b7) := rfl
theorem unpackPeak (input : Buffer) : Statement (.unpackPeak input) := rfl
theorem peakSer (peak : MeasuredPeak) : Statement (.peakSer peak) := rfl
theorem peakDes (input : Buffer) : Statement (.peakDes input) := rfl
theorem cfgSer (cfg : FilterConfig) : Statement (.cfgSer cfg) := rfl
theorem cfgDes (input : Buffer) : Statement (.cfgDes input) := rfl
theorem statSer (stat : Status) : Statement (.statSer stat) := rfl
theorem statDes (input : Buffer) : Statement (.statDes input) := rfl
theorem msgSer (msg : Message) : Statement (.msgSer msg) := rfl
theorem msgDes (input : Buffer) : Statement (.msgDes input) := rfl
theorem opFRefused : Statement (.opFRefused) := rfl
theorem be16 (v : BitVec 16) : Statement (.be16 v) := rfl
theorem be32 (v : BitVec 32) : Statement (.be32 v) := rfl
theorem be64 (v : BitVec 64) : Statement (.be64 v) := rfl
theorem packed12 (timestamp : BitVec 40) (cycle : BitVec 18) (speed : BitVec 10) (peakHeight : BitVec 28) : Statement (.packed12 timestamp cycle speed peakHeight) := rfl
theorem peak18 (peak : MeasuredPeak) : Statement (.peak18 peak) := rfl
theorem cfg40 (cfg : FilterConfig) : Statement (.cfg40 cfg) := rfl
theorem statStart : Statement (.statStart) := rfl
theorem statStop : Statement (.statStop) := rfl
theorem statInvalid (x : Byte) : Statement (.statInvalid x) := rfl
theorem msgData (peaks : List MeasuredPeak) : Statement (.msgData peaks) := rfl
theorem msgStatus (s : Byte) : Statement (.msgStatus s) := rfl
theorem msgConfig (cfg : FilterConfig) : Statement (.msgConfig cfg) := rfl
theorem msgInvalidTag (x : Byte) : Statement (.msgInvalidTag x) := rfl

end Sys2Proof.Laws.RowForm
end

