-- ==== Sys2Proof/Laws/State.lean ====
section
/-!
SUPPORT. One lemma per field and update of the state, and what each shared operation can do.
-/

namespace Sys2Proof.Machine

@[simp] theorem State.complete_pending (r : Result) (s : State) : (s.complete r).pending = s.pending := rfl
@[simp] theorem State.complete_response (r : Result) (s : State) : (s.complete r).response = some (.ok r) := rfl
@[simp] theorem State.complete_runFault (r : Result) (s : State) : (s.complete r).runFault = s.runFault := rfl

@[simp] theorem State.raise_pending (x : Abnormal) (s : State) : (s.raise x).pending = s.pending := rfl
@[simp] theorem State.raise_response (x : Abnormal) (s : State) : (s.raise x).response = some (.raised x) := rfl
@[simp] theorem State.raise_runFault (x : Abnormal) (s : State) :
    (s.raise x).runFault = runFaultAfter x s.runFault := rfl

@[simp] theorem State.present_pending (p : Presented) (s : State) : (s.present p).pending = s.pending ++ [p] := rfl
@[simp] theorem State.present_response (p : Presented) (s : State) : (s.present p).response = s.response := rfl
@[simp] theorem State.present_runFault (p : Presented) (s : State) : (s.present p).runFault = s.runFault := rfl

@[simp] theorem State.placeNext_pending (p : Presented) (s : State) : (s.placeNext p).pending = p :: s.pending := rfl
@[simp] theorem State.placeNext_response (p : Presented) (s : State) : (s.placeNext p).response = s.response := rfl
@[simp] theorem State.placeNext_runFault (p : Presented) (s : State) : (s.placeNext p).runFault = s.runFault := rfl

@[simp] theorem State.resetDuring_pending (s : State) : s.resetDuring.pending = s.pending.tail := rfl
@[simp] theorem State.resetDuring_response (s : State) : s.resetDuring.response = none := rfl
@[simp] theorem State.resetDuring_runFault (s : State) : s.resetDuring.runFault = s.runFault := rfl

@[simp] theorem State.resetBlock_pending (s : State) : s.resetBlock.pending = s.pending := rfl
@[simp] theorem State.resetBlock_response (s : State) : s.resetBlock.response = none := rfl
@[simp] theorem State.resetBlock_runFault (s : State) : s.resetBlock.runFault = s.runFault := rfl

@[simp] theorem State.reset_pending : State.reset.pending = [] := rfl
@[simp] theorem State.reset_response : State.reset.response = none := rfl
@[simp] theorem State.reset_runFault : State.reset.runFault = none := rfl

@[simp] theorem runFaultAfter_bufferTooShort (n : Nat) (f : Option Fault) :
    runFaultAfter (.bufferTooShort n) f = f := rfl
@[simp] theorem runFaultAfter_invalidDiscriminant (f : Option Fault) : runFaultAfter .invalidDiscriminant f = f := rfl
@[simp] theorem runFaultAfter_invalidInputLength (f : Option Fault) :
    runFaultAfter .invalidInputLength f = some .invalidInputLength := rfl

/-- The response a deserializer's outcome stands for. -/
def responseOf {α : Type} (wrap : α → Nat → Result) (d : Decoded α) : Response :=
  match d with
  | .ok v c => .ok (wrap v c)
  | .raised e => .raised (abnormalOf e)

/-- Answering replaces the response and touches nothing else: a `DeserializeError` never marks the run as faulty. -/
theorem State.answer_eq {α : Type} (wrap : α → Nat → Result) (d : Decoded α) (s : State) :
    s.answer wrap d = { s with response := some (responseOf wrap d) } := by
  cases d with
  | ok v c => rfl
  | raised e => cases e <;> rfl

/-- A deserializer's response is never the fault of UNPACK_PEAK (R23, R143). -/
theorem responseOf_ne_invalidInputLength {α : Type} (wrap : α → Nat → Result) (d : Decoded α) :
    responseOf wrap d ≠ .raised .invalidInputLength := by
  cases d with
  | ok v c => simp [responseOf]
  | raised e => cases e <;> simp [responseOf, abnormalOf]

/-- A transaction issued while another waits is not the one taken next (R40). -/
theorem State.take?_present {s : State} (p : Presented) (h : s.pending ≠ []) :
    (s.present p).take? = s.take?.map fun x => (x.1, x.2.present p) := by
  cases hp : s.pending with
  | nil => exact absurd hp h
  | cons q rest => simp [State.take?, State.present, hp]

theorem State.take?_nil {s : State} (h : s.pending = []) : s.take? = none := by simp [State.take?, h]

theorem State.take?_cons {s : State} {p : Presented} {rest : List Presented} (h : s.pending = p :: rest) :
    s.take? = some (p, { s with pending := rest }) := by simp [State.take?, h]

end Sys2Proof.Machine
end

