-- ==== Sys2Proof/Tests/Slice0.lean ====
section
/-!
SUPPORT. Small checks: ill-formed terms are refused, hand-written encodings decode to their instructions, the vectors of
95_test_vectors.md are answered as they say, and every statement's hypotheses can be met. Expected values come from the
spec's vectors (S, V, P numbers) or from its rules by hand.
-/

namespace Sys2Proof.Tests

open Sys2Proof Sys2Proof.Machine

/-! ### Helpers and the spec's example values -/

/-- The state after reset with one transaction issued. -/
def withOne (p : Presented) : State := { State.reset with pending := [p] }

/-- Does the decoder read this instruction from the transaction? -/
def reads (p : Presented) (i : Instr) : Bool :=
  match decode p with
  | .ok j => decide (j = i)
  | .error _ => false

/-- Does the step answer the transaction with this response, no transaction left over? -/
def answers (p : Presented) (r : Response) : Bool :=
  match step (withOne p) with
  | .next t => decide (t.response = some r) && t.pending.isEmpty
  | .fault _ => false
  | .refused _ => false

/-- Does the step refuse the transaction for this reason? -/
def refuses (p : Presented) (x : Refusal) : Bool :=
  match step (withOne p) with
  | .next _ => false
  | .fault _ => false
  | .refused y => decide (y = x)

/-- A request for an operation that reads a buffer. -/
def onInput (op : BitVec 4) (input : Buffer) : Presented := .request { Request.blank with op := op, input := input }

/-- A request for one of the three primitive encoders. -/
def onVal (op : BitVec 4) (v : BitVec 64) : Presented := .request { Request.blank with op := op, val := v }

/-- `peak` of 95_test_vectors.md. -/
def peak : MeasuredPeak := { timestamp := 59182041740, peakHeight := 53950023, speed := 947, cycle := 40278 }

/-- `PK`, S2. -/
def pk : Buffer := [0, 0, 0, 13, 199, 134, 74, 140, 3, 55, 54, 71, 3, 179, 0, 0, 157, 86]

/-- `cfg` of 95_test_vectors.md. -/
def cfg : FilterConfig := { pthresh := 1000000, tdead := 100, k := 20, l := 50, m := 2000000 }

/-- `CF`, S1. -/
def cf : Buffer :=
  [0, 0, 0, 0, 0, 15, 66, 64, 0, 0, 0, 0, 0, 0, 0, 100, 0, 0, 0, 0, 0, 0, 0, 20, 0, 0, 0, 0, 0, 0, 0, 50,
   0, 0, 0, 0, 0, 30, 132, 128]

/-- `raw1`, V-UNP3. -/
def raw1 : Buffer := [0x8C, 0x4A, 0x86, 0xC7, 0x0D, 0x56, 0x9D, 0xCC, 0x7E, 0x64, 0x73, 0x33]

/-- V-MSG5, 45 bytes. -/
def twoPeaks : Buffer := [0, 0, 0, 0, 0, 0, 0, 0, 2] ++ pk ++ pk

/-- V-MSG6, 27 bytes. -/
def onePeak : Buffer := [0, 0, 0, 0, 0, 0, 0, 0, 1] ++ pk

/-- A `Data` message with 2^64 peaks, one more than a count of R57 can say. -/
def tooLong : List MeasuredPeak := List.replicate (2 ^ 64) peak

theorem length_tooLong : tooLong.length = 2 ^ 64 := List.length_replicate

/-- The largest `Data` message that can be presented. -/
def longest : List MeasuredPeak := List.replicate (2 ^ 64 - 1) peak

theorem length_longest : longest.length = 2 ^ 64 - 1 := List.length_replicate

/-! ### WellFormed: an ill-formed term for each check -/

theorem test_illFormed_msgSer : (Instr.msgSer (.data tooLong)).wellFormed = false := by
  simp only [Instr.wellFormed, Message.presentable, length_tooLong]; decide

theorem test_illFormed_msgData : (Instr.msgData tooLong).wellFormed = false := by
  simp only [Instr.wellFormed, length_tooLong]; decide

theorem test_illFormed_statInvalid : (Instr.statInvalid 1).wellFormed = false := by decide

theorem test_illFormed_msgInvalidTag : (Instr.msgInvalidTag 2).wellFormed = false := by decide

theorem test_wellFormed_statInvalid : (Instr.statInvalid 2).wellFormed = true := by decide

theorem test_wellFormed_msgInvalidTag : (Instr.msgInvalidTag 3).wellFormed = true := by decide

/-! ### Decoding: one encoding written by hand for every constructor (R70, R71, and the formats of R51 to R63) -/

theorem test_decode_enc16 : reads (onVal 0b0000 0xFFFF1234) (.enc16 0x1234) = true := by decide
theorem test_decode_enc32 : reads (onVal 0b0001 0xFF12345678) (.enc32 0x12345678) = true := by decide
theorem test_decode_enc64 : reads (onVal 0b0010 0x0123456789ABCDEF) (.enc64 0x0123456789ABCDEF) = true := by decide
theorem test_decode_dec16 : reads (onInput 0b0011 [0x12, 0x34]) (.dec16 0x12 0x34) = true := by decide
theorem test_decode_dec32 :
    reads (onInput 0b0100 [0x12, 0x34, 0x56, 0x78]) (.dec32 0x12 0x34 0x56 0x78) = true := by decide
theorem test_decode_dec64 :
    reads (onInput 0b0101 [1, 2, 3, 4, 5, 6, 7, 8]) (.dec64 1 2 3 4 5 6 7 8) = true := by decide
theorem test_decode_unpackPeak : reads (onInput 0b0110 raw1) (.unpackPeak raw1) = true := by decide
theorem test_decode_peakSer :
    reads (.request { Request.blank with op := 0b0111, peak := peak }) (.peakSer peak) = true := by decide
theorem test_decode_peakDes : reads (onInput 0b1000 pk) (.peakDes pk) = true := by decide
theorem test_decode_cfgSer :
    reads (.request { Request.blank with op := 0b1001, cfg := cfg }) (.cfgSer cfg) = true := by decide
theorem test_decode_cfgDes : reads (onInput 0b1010 cf) (.cfgDes cf) = true := by decide
theorem test_decode_statSer :
    reads (.request { Request.blank with op := 0b1011, stat := .stop }) (.statSer .stop) = true := by decide
theorem test_decode_statDes : reads (onInput 0b1100 [0, 9]) (.statDes [0, 9]) = true := by decide
theorem test_decode_msgSer :
    reads (.request { Request.blank with op := 0b1101, msg := .config cfg }) (.msgSer (.config cfg)) = true := by decide
theorem test_decode_msgDes : reads (onInput 0b1110 [1, 0]) (.msgDes [1, 0]) = true := by decide
theorem test_decode_opF : reads (onInput 0b1111 []) .opFRefused = true := by decide
theorem test_decode_be16 : reads (.wire .be16 [0x03, 0xB3]) (.be16 947) = true := by decide
theorem test_decode_be32 : reads (.wire .be32 [0x03, 0x37, 0x36, 0x47]) (.be32 53950023) = true := by decide
theorem test_decode_be64 :
    reads (.wire .be64 [0, 0, 0, 0x0D, 0xC7, 0x86, 0x4A, 0x8C]) (.be64 59182041740) = true := by decide
theorem test_decode_packed12 :
    reads (.wire .packed12 raw1) (.packed12 59182041740 40278 947 53950023) = true := by decide
theorem test_decode_peak18 : reads (.wire .peak18 pk) (.peak18 peak) = true := by decide
theorem test_decode_cfg40 : reads (.wire .cfg40 cf) (.cfg40 cfg) = true := by decide
theorem test_decode_statStart : reads (.wire .stat1 [0x00]) .statStart = true := by decide
theorem test_decode_statStop : reads (.wire .stat1 [0x01]) .statStop = true := by decide
theorem test_decode_statInvalid : reads (.wire .stat1 [0x80]) (.statInvalid 0x80) = true := by decide
theorem test_decode_msgData : reads (.wire .msg onePeak) (.msgData [peak]) = true := by decide
theorem test_decode_msgStatus : reads (.wire .msg [0x01, 0x02]) (.msgStatus 0x02) = true := by decide
theorem test_decode_msgConfig : reads (.wire .msg (0x02 :: cf)) (.msgConfig cfg) = true := by decide
theorem test_decode_msgInvalidTag : reads (.wire .msg [0x03, 0, 0]) (.msgInvalidTag 0x03) = true := by decide

/-- D15: DEC16 on three bytes cannot be presented. -/
theorem test_decode_dec16_three_bytes : refuses (onInput 0x3 [1, 2, 3]) (.operandLength 2 3) = true := by decide

/-- A truncated string is the reading operation's own transaction. -/
theorem test_decode_truncated_peak18 : reads (.wire .peak18 raw1) (.peakDes raw1) = true := by decide

/-! ### One step each: the vectors of the spec -/

/-- V-PRIM6. -/
theorem test_enc16 : answers (onVal 0x0 0x1234) (.ok (.out [0x12, 0x34])) = true := by decide
/-- V-PRIM11. -/
theorem test_enc32 : answers (onVal 0x1 40278) (.ok (.out [0, 0, 0x9D, 0x56])) = true := by decide
/-- V-PRIM20. -/
theorem test_enc64 : answers (onVal 0x2 9223372036854775808) (.ok (.out [0x80, 0, 0, 0, 0, 0, 0, 0])) = true := by decide
/-- V-PRIM4. -/
theorem test_dec16 : answers (onInput 0x3 [0x01, 0x00]) (.ok (.val16 256)) = true := by decide
/-- V-PRIM14. -/
theorem test_dec32 : answers (onInput 0x4 [0x80, 0, 0, 0]) (.ok (.val32 2147483648)) = true := by decide
/-- V-PRIM19. -/
theorem test_dec64 :
    answers (onInput 0x5 [0x01, 0x23, 0x45, 0x67, 0x89, 0xAB, 0xCD, 0xEF]) (.ok (.val64 81985529216486895)) = true := by
  decide
/-- V-UNP34, worked by hand in the spec. -/
theorem test_unpackPeak :
    answers (onInput 0x6 [0x01, 0x23, 0x45, 0x67, 0x89, 0xAB, 0xCD, 0xEF, 0x12, 0x34, 0x56, 0x78])
      (.ok (.unpacked { timestamp := 590143103745, peakHeight := 126182209, speed := 187, cycle := 249259 })) = true := by
  decide
/-- V-UNP40: eighteen bytes are the length fault. -/
theorem test_unpackPeak_length : answers (onInput 0x6 pk) (.raised .invalidInputLength) = true := by decide
/-- S2. -/
theorem test_peakSer : answers (.request { Request.blank with op := 0x7, peak := peak }) (.ok (.out pk)) = true := by decide
/-- V-REC6: two trailing bytes. -/
theorem test_peakDes :
    answers (onInput 0x8 [1, 2, 3, 4, 5, 6, 7, 8, 9, 10, 11, 12, 13, 14, 15, 16, 17, 18, 19, 20])
      (.ok (.peak { timestamp := 72623859790382856, peakHeight := 151653132, speed := 3342, cycle := 252711186 } 18)) = true := by
  decide
/-- P4, step 3. -/
theorem test_peakDes_short : answers (onInput 0x8 raw1) (.raised (.bufferTooShort 6)) = true := by decide
/-- S1. -/
theorem test_cfgSer : answers (.request { Request.blank with op := 0x9, cfg := cfg }) (.ok (.out cf)) = true := by decide
/-- V-REC13. -/
theorem test_cfgDes : answers (onInput 0xA cf) (.ok (.cfg cfg 40)) = true := by decide
/-- V-REC18. -/
theorem test_cfgDes_short : answers (onInput 0xA (cf.take 8)) (.raised (.bufferTooShort 32)) = true := by decide
/-- V-REC23. -/
theorem test_statSer : answers (.request { Request.blank with op := 0xB, stat := .stop }) (.ok (.out [1])) = true := by decide
/-- V-REC30. -/
theorem test_statDes : answers (onInput 0xC [0, 9]) (.ok (.stat .start 1)) = true := by decide
/-- V-REC31. -/
theorem test_statDes_invalid : answers (onInput 0xC [2, 1]) (.raised .invalidDiscriminant) = true := by decide
/-- V-MSG6. -/
theorem test_msgSer :
    answers (.request { Request.blank with op := 0xD, msg := .data [peak] }) (.ok (.out onePeak)) = true := by decide
/-- V-MSG3. -/
theorem test_msgSer_config :
    answers (.request { Request.blank with op := 0xD, msg := .config cfg }) (.ok (.out (0x02 :: cf))) = true := by decide
/-- V-MSG18. -/
theorem test_msgDes : answers (onInput 0xE (twoPeaks ++ [0xEE])) (.ok (.msg (.data [peak, peak]) 45)) = true := by decide
/-- V-MSG35: a 64-bit product would wrap. -/
theorem test_msgDes_large_count :
    answers (onInput 0xE [0, 0x80, 0, 0, 0, 0, 0, 0, 0]) (.raised (.bufferTooShort 166020696663385964544)) = true := by decide
/-- R71. -/
theorem test_opF : refuses (onInput 0xF []) .noOperation = true := by decide
/-- V-PRIM5. -/
theorem test_be16 : answers (.wire .be16 [0x03, 0xB3]) (.ok (.val16 947)) = true := by decide
/-- V-PRIM12. -/
theorem test_be32 : answers (.wire .be32 [0x03, 0x37, 0x36, 0x47]) (.ok (.val32 53950023)) = true := by decide
/-- V-PRIM18. -/
theorem test_be64 :
    answers (.wire .be64 [0, 0, 0, 0x0D, 0xC7, 0x86, 0x4A, 0x8C]) (.ok (.val64 59182041740)) = true := by decide
/-- V-UNP3. -/
theorem test_packed12 : answers (.wire .packed12 raw1) (.ok (.unpacked peak)) = true := by decide
/-- V-REC2. -/
theorem test_peak18 : answers (.wire .peak18 pk) (.ok (.peak peak 18)) = true := by decide
/-- V-REC20: one trailing byte. -/
theorem test_cfg40 : answers (.wire .cfg40 (cf ++ [7])) (.ok (.cfg cfg 40)) = true := by decide
/-- V-REC25. -/
theorem test_statStart : answers (.wire .stat1 [0]) (.ok (.stat .start 1)) = true := by decide
/-- V-REC26. -/
theorem test_statStop : answers (.wire .stat1 [1]) (.ok (.stat .stop 1)) = true := by decide
/-- V-REC29. -/
theorem test_statInvalid : answers (.wire .stat1 [128]) (.raised .invalidDiscriminant) = true := by decide
/-- V-MSG31. -/
theorem test_msgData : answers (.wire .msg [0, 0, 0, 0, 0, 0, 0, 0, 0, 0x55]) (.ok (.msg (.data []) 9)) = true := by decide
/-- V-MSG27. -/
theorem test_msgStatus : answers (.wire .msg [0x01, 0x00, 0x4D]) (.ok (.msg (.status .start) 2)) = true := by decide
/-- V-MSG26. -/
theorem test_msgStatus_invalid : answers (.wire .msg [0x01, 0xFF]) (.raised .invalidDiscriminant) = true := by decide
/-- V-MSG3. -/
theorem test_msgConfig : answers (.wire .msg (0x02 :: cf)) (.ok (.msg (.config cfg) 41)) = true := by decide
/-- V-MSG24. -/
theorem test_msgInvalidTag : answers (.wire .msg [0x03, 0, 0]) (.raised .invalidDiscriminant) = true := by decide

/-- P3: four messages in one buffer, then a corrupt byte at offset 72. -/
theorem test_readAll :
    readAll ([1, 0] ++ (2 :: cf) ++ onePeak ++ [1, 1] ++ [3, 0xAA]) =
      ⟨[.status .start, .config cfg, .data [peak], .status .stop], 72, .corrupt⟩ := by decide

/-- Log 19: the loop decodes nothing on an empty buffer; P2, step 1: MSG_DES on it is short by 1. -/
theorem test_empty_buffer :
    readAll [] = ⟨[], 0, .finished⟩ ∧ answers (onInput 0xE []) (.raised (.bufferTooShort 1)) = true := by decide

/-! ### The host's two questions, on a few words of the opcode table -/

theorem test_tableWord_msgSer : decodeTableWord 8 0xD = some (.msgSer (.data [])) := by decide
theorem test_tableWord_opF : decodeTableWord 8 0xF = some .opFRefused := by decide
theorem test_tableWord_statInvalid : decodeTableWord 8 0xFF = some (.statInvalid 0xFF) := by decide
theorem test_fetch_enc16 :
    step (State.reset.withFetchWord 8 0x0) = .next { State.reset with response := some (.ok (.out [0, 0])) } := by rfl
theorem test_fetch_be16 :
    step (State.reset.withFetchWord 16 0xB303) = .next { State.reset with response := some (.ok (.val16 947)) } := by rfl
theorem test_fetch_opF : step (State.reset.withFetchWord 8 0xF) = .refused .noOperation := by rfl

/-! ### Every statement's hypotheses can be met: one theorem per statement, one conjunct per clause -/

/-- A request with the given `op`, its other fields blank. -/
def req (op : BitVec 4) : Request := { Request.blank with op := op }

/-- The largest value of each width. -/
theorem witness_PrimitiveEncoders :
    (∃ r : Request, r.op = 0x0 ∧ r.val.toNat = (0xFFFF : BitVec 16).toNat) ∧
    (∃ r : Request, r.op = 0x1 ∧ r.val.toNat = (0xFFFFFFFF : BitVec 32).toNat) ∧
    (∃ r : Request, r.op = 0x2 ∧ r.val.toNat = (0xFFFFFFFFFFFFFFFF : BitVec 64).toNat) :=
  ⟨⟨{ req 0x0 with val := 0xFFFF }, rfl, rfl⟩, ⟨{ req 0x1 with val := 0xFFFFFFFF }, rfl, rfl⟩,
    ⟨{ req 0x2 with val := 0xFFFFFFFFFFFFFFFF }, rfl, rfl⟩⟩

theorem witness_WideValues : (req 0x0).op = 0x0 ∧ (req 0x1).op = 0x1 := by decide

theorem witness_PrimitiveDecoders :
    (∃ r : Request, r.op = 0x3 ∧ r.input = [0xFF, 0]) ∧ (∃ r : Request, r.op = 0x4 ∧ r.input = [0xFF, 0, 0, 1]) ∧
    (∃ r : Request, r.op = 0x5 ∧ r.input = [0xFF, 0, 0, 1, 0, 0, 0, 2]) :=
  ⟨⟨{ req 0x3 with input := [0xFF, 0] }, rfl, rfl⟩, ⟨{ req 0x4 with input := [0xFF, 0, 0, 1] }, rfl, rfl⟩,
    ⟨{ req 0x5 with input := [0xFF, 0, 0, 1, 0, 0, 0, 2] }, rfl, rfl⟩⟩

/-- One byte too few and one too many, for each of the three. -/
theorem witness_PrimitiveDecodersRefuse :
    ∀ c ∈ [((0x3 : BitVec 4), 2, 1), (0x3, 2, 3), (0x4, 4, 3), (0x4, 4, 5), (0x5, 8, 7), (0x5, 8, 9)],
      ∃ r : Request, (withOne (.request r)).pending = .request r :: [] ∧ r.op = c.1 ∧ r.input.length = c.2.2 ∧
        r.input.length ≠ c.2.1 := by
  intro c hc
  refine ⟨{ req c.1 with input := List.replicate c.2.2 0 }, rfl, rfl, by simp, ?_⟩
  simp only [List.length_replicate]
  revert c
  decide

theorem witness_UnpackPeakExtracts :
    (req 0x6).op = 0x6 ∧ (List.replicate 11 (0 : Byte)).length ≠ 12 ∧ (List.replicate 13 (0 : Byte)).length ≠ 12 := by decide

theorem witness_UnpackPeakFaults : (raw1.take 11).length ≠ 12 ∧ (raw1 ++ [0]).length ≠ 12 ∧ ([] : Buffer).length ≠ 12 := by
  decide

/-- The largest of each range, and two equal inputs. -/
theorem witness_UnpackPeakBijection :
    raw1.length = 12 ∧ exec (.unpackPeak raw1) State.reset = exec (.unpackPeak raw1) State.reset ∧
    (let p : MeasuredPeak := { timestamp := 1099511627775, peakHeight := 268435455, speed := 1023, cycle := 262143 }
     p.timestamp.toNat < 2 ^ 40 ∧ p.cycle.toNat < 2 ^ 18 ∧ p.speed.toNat < 2 ^ 10 ∧ p.peakHeight.toNat < 2 ^ 28) :=
  ⟨rfl, rfl, by decide⟩

theorem witness_UnpackPeakTable : raw1.length = 12 := rfl

theorem witness_RecordSerializers : (req 0x7).op = 0x7 ∧ (req 0x9).op = 0x9 ∧ (req 0xB).op = 0xB := by decide

/-- The request, and both sides of the length test. -/
theorem witness_PeakDes : (req 0x8).op = 0x8 ∧ (pk.take 17).length < 18 ∧ ¬ pk.length < 18 := by decide

theorem witness_CfgDes : (req 0xA).op = 0xA ∧ (cf.take 39).length < 40 ∧ ¬ cf.length < 40 := by decide

theorem witness_StatDes :
    (req 0xC).op = 0xC ∧ (0x00 : Byte).toNat = 0 ∧ (0x01 : Byte).toNat = 1 ∧ (0x02 : Byte).toNat ≠ 0 ∧
    (0x02 : Byte).toNat ≠ 1 := by decide

/-- The largest message that can be presented has 2^64 - 1 peaks. -/
theorem maximal_presentable : (Message.data longest).presentable = true := by
  simp only [Message.presentable, length_longest]; decide

theorem witness_RecordRoundTrips :
    (Message.data longest).presentable = true ∧ (Message.data []).presentable = true ∧
    pk.length = 18 ∧ cf.length = 40 ∧ (0x01 : Byte).toNat < 2 :=
  ⟨maximal_presentable, by decide, rfl, rfl, by decide⟩

theorem witness_RecordShortfall :
    ((pk.take 17).length < 18 ∧ [(0 : Byte)].length = 18 - (pk.take 17).length) ∧
    (([] : Buffer).length < 18 ∧ pk.length = 18 - ([] : Buffer).length) ∧
    ((cf.take 39).length < 40 ∧ [(0 : Byte)].length = 40 - (cf.take 39).length) ∧
    (([] : Buffer).length < 40 ∧ cf.length = 40 - ([] : Buffer).length) := by decide

theorem witness_CanonicalDecoders : pk.length = 18 ∧ cf.length = 40 := by decide

theorem witness_MsgSerWritesData :
    ((req 0xD).op = 0xD ∧ (req 0xD).msg.presentable = true) ∧ longest.length ≤ 2 ^ 64 - 1 :=
  ⟨by decide, length_longest.le⟩

theorem witness_MsgSerRefuses :
    ∃ (s : State) (r : Request) (rest : List Presented) (peaks : List MeasuredPeak),
      s.pending = .request r :: rest ∧ r.op = 0xD ∧ r.msg = .data peaks ∧ 2 ^ 64 ≤ peaks.length :=
  ⟨withOne (.request { req 0xD with msg := .data tooLong }), _, [], tooLong, rfl, rfl, rfl, length_tooLong.ge⟩

theorem witness_MsgDesTests : (req 0xE).op = 0xE ∧ 3 ≤ (0x03 : Byte).toNat ∧ 3 ≤ (0xFF : Byte).toNat := by decide

theorem witness_MsgDesRejects : 3 ≤ (0x03 : Byte).toNat ∧ 3 ≤ (0xFF : Byte).toNat := by decide

/-- The three branches where they meet: 8 bytes, a payload one byte short, a payload exactly long enough. -/
theorem witness_MsgDesReadsData :
    (twoPeaks.take 8).length < 9 ∧
    (¬ (twoPeaks.take 44).length < 9 ∧
      (twoPeaks.take 44).length - 9 < Spec.beValue (memRead (twoPeaks.take 44) 1 8) * 18) ∧
    (¬ twoPeaks.length < 9 ∧ ¬ twoPeaks.length - 9 < Spec.beValue (memRead twoPeaks 1 8) * 18) := by decide

theorem witness_MsgDesReadsStatus : (0x00 : Byte).toNat = 0 ∧ (0x01 : Byte).toNat = 1 ∧ 1 < (0x02 : Byte).toNat := by decide

theorem witness_MsgDesReadsConfig : (0x02 :: cf.take 39 : Buffer).length < 41 ∧ ¬ (0x02 :: cf : Buffer).length < 41 := by
  decide

theorem witness_InvalidStatusBytes : 2 ≤ (0x02 : Byte).toNat ∧ 2 ≤ (0xFF : Byte).toNat := by decide

theorem witness_SerializedLengths :
    longest.length ≤ Config.maxPeaks ∧ ([] : List MeasuredPeak).length ≤ Config.maxPeaks :=
  ⟨length_longest.le, by decide⟩

theorem witness_MessageRoundTrip :
    (Message.status .stop).presentable = true ∧
    ∃ t : State, exec (.msgDes [1, 1, 0xEE]) State.reset = .next t ∧
      t.response = some (.ok (.msg (.status .stop) 2)) :=
  ⟨rfl, _, rfl, rfl⟩

/-- One byte short of each kind of message, both sides of the `Data` header, and the empty prefix. -/
theorem witness_MessageTruncation :
    ((Message.data [peak]).presentable = true ∧ 26 < (Spec.messageBytes (.data [peak])).length) ∧
    (8 < (Spec.messageBytes (.data [peak])).length ∧ 9 < (Spec.messageBytes (.data [peak])).length) ∧
    ((Message.status .start).presentable = true ∧ 1 < (Spec.messageBytes (.status .start)).length) ∧
    ((Message.config cfg).presentable = true ∧ 40 < (Spec.messageBytes (.config cfg)).length) ∧
    ((Message.data []).presentable = true ∧ 0 < (Spec.messageBytes (.data [])).length) := by decide

theorem witness_LargeCounts :
    (2 ^ 64 - 1 < 2 ^ 64 ∧ ([] : Buffer).length < 18 * (2 ^ 64 - 1)) ∧ (1 < 2 ^ 64 ∧ (pk.take 17).length < 18 * 1) := by
  decide

theorem witness_MsgDesConsumes :
    ∃ t : State, exec (.msgDes (twoPeaks ++ [0xEE])) State.reset = .next t ∧
      t.response = some (.ok (.msg (.data [peak, peak]) 45)) :=
  ⟨{ State.reset with response := some (.ok (.msg (.data [peak, peak]) 45)) }, rfl, rfl⟩

/-- Each of the four deserializers with a trailing byte, and UNPACK_PEAK with one. -/
theorem witness_TrailingBytes :
    (∃ t : State, exec (.peakDes (pk ++ [1])) State.reset = .next t ∧ t.response = some (.ok (.peak peak 18)) ∧
      (Result.peak peak 18).consumed = some 18 ∧ (pk ++ [1]).take 18 = (pk ++ [2, 3]).take 18) ∧
    (∃ t : State, exec (.cfgDes (cf ++ [1])) State.reset = .next t ∧ t.response = some (.ok (.cfg cfg 40)) ∧
      (Result.cfg cfg 40).consumed = some 40 ∧ (cf ++ [1]).take 40 = cf.take 40) ∧
    (∃ t : State, exec (.statDes [0, 9]) State.reset = .next t ∧ t.response = some (.ok (.stat .start 1)) ∧
      (Result.stat .start 1).consumed = some 1 ∧ ([0, 9] : Buffer).take 1 = ([0] : Buffer).take 1) ∧
    (∃ t : State, exec (.msgDes [1, 0, 0x4D]) State.reset = .next t ∧ t.response = some (.ok (.msg (.status .start) 2)) ∧
      (Result.msg (.status .start) 2).consumed = some 2 ∧ ([1, 0, 0x4D] : Buffer).take 2 = ([1, 0] : Buffer).take 2) ∧
    (raw1.length = 12 ∧ ([0] : Buffer) ≠ []) :=
  ⟨⟨_, rfl, rfl, rfl, rfl⟩, ⟨_, rfl, rfl, rfl, rfl⟩, ⟨_, rfl, rfl, rfl, rfl⟩, ⟨_, rfl, rfl, rfl, rfl⟩, by decide⟩

/-- A retry with one byte too few and one with exactly enough, for a record and for a message whose header is there. -/
theorem witness_Retry :
    (∃ t : State, exec (.peakDes (pk.take 16)) State.reset = .next t ∧
      t.response = some (.raised (.bufferTooShort 2)) ∧ ([0] : Buffer).length < 2) ∧
    (∃ t : State, exec (.msgDes (twoPeaks.take 44)) State.reset = .next t ∧
      t.response = some (.raised (.bufferTooShort 1)) ∧ 1 ≤ ([0] : Buffer).length ∧ 9 ≤ (twoPeaks.take 44).length) ∧
    (∃ t : State, exec (.msgDes [0x01]) State.reset = .next t ∧ t.response = some (.raised (.bufferTooShort 1)) ∧
      1 ≤ ([0] : Buffer).length ∧ ∃ x rest, ([0x01] : Buffer) = x :: rest ∧ x ≠ 0x00) :=
  ⟨⟨_, rfl, rfl, by decide⟩, ⟨_, rfl, rfl, by decide⟩, ⟨_, rfl, rfl, by decide, 0x01, [], rfl, by decide⟩⟩

theorem witness_Streams :
    (∀ m ∈ [Message.status .start, .config cfg, .data [peak]], m.presentable = true) ∧ 3 ≤ (0x03 : Byte).toNat ∧
    ((Message.status .stop).presentable = true ∧ 0 < 1 ∧ 1 < (Spec.messageBytes (.status .stop)).length) := by decide

/-- Both sides of every condition of the table, where they meet. -/
theorem witness_Outcomes :
    (Message.data [peak]).presentable = true ∧ (raw1.length = 12 ∧ (raw1 ++ [0]).length ≠ 12) ∧
    (18 ≤ pk.length ∧ ¬ 18 ≤ (pk.take 17).length) ∧ (40 ≤ cf.length ∧ ¬ 40 ≤ (cf.take 39).length) ∧
    ((byteAt [1] 0).toNat ≤ 1 ∧ ¬ (byteAt [2] 0).toNat ≤ 1) ∧
    ((twoPeaks.take 44).length - 9 < 18 * Spec.beValue (memRead (twoPeaks.take 44) 1 8) ∧
      ¬ twoPeaks.length - 9 < 18 * Spec.beValue (memRead twoPeaks 1 8)) ∧
    ((0x02 :: cf.take 39 : Buffer).length < 41 ∧ ¬ (0x02 :: cf : Buffer).length < 41) := by decide

/-- The largest deficit, V-MSG33. -/
theorem witness_Deficits :
    ∃ (t : State) (r : Response), exec (.msgDes [0, 255, 255, 255, 255, 255, 255, 255, 255]) State.reset = .next t ∧
      t.response = some r ∧ r.missing = some 332041393326771929070 :=
  ⟨_, _, rfl, rfl, rfl⟩

/-- An OK response of an operation, and each status. -/
theorem witness_InvalidFields :
    (∃ (t : State) (r : Response), exec (.enc16 947) State.reset = .next t ∧ t.response = some r ∧ r.status = 0) ∧
    (Response.ok (.out [])).status = 0 ∧ (Response.raised (.bufferTooShort 1)).status = 1 ∧
    (Response.raised .invalidDiscriminant).status = 2 ∧ (Response.raised .invalidInputLength).status = 3 :=
  ⟨⟨_, _, rfl, rfl, rfl⟩, by decide⟩

theorem witness_StatusAndMessageStrings :
    2 ≤ (0x02 : Byte).toNat ∧ [peak].length < 2 ^ 64 ∧ longest.length < 2 ^ 64 ∧
    3 ≤ (0x03 : Byte).toNat :=
  ⟨by decide, by decide, by rw [length_longest]; decide, by decide⟩

/-- A string of every format. -/
theorem witness_WireStrings :
    parseWire .be16 [3, 179] = some (.be16 947) ∧ parseWire .be32 [3, 55, 54, 71] = some (.be32 53950023) ∧
    parseWire .be64 [0, 0, 0, 0, 0, 0, 0, 1] = some (.be64 1) ∧
    parseWire .packed12 raw1 = some (.packed12 59182041740 40278 947 53950023) ∧
    parseWire .peak18 (pk ++ [9]) = some (.peak18 peak) ∧ parseWire .cfg40 cf = some (.cfg40 cfg) ∧
    parseWire .stat1 [255] = some (.statInvalid 255) ∧ parseWire .msg (onePeak ++ [9]) = some (.msgData [peak]) := by decide

theorem witness_DecodeEncode :
    (Instr.msgData longest).wellFormed = true ∧ (Instr.statInvalid 2).wellFormed = true ∧
    (Instr.msgInvalidTag 255).wellFormed = true ∧ (Instr.enc16 0xFFFF).wellFormed = true :=
  ⟨by simp only [Instr.wellFormed, length_longest]; decide, by decide, by decide, rfl⟩

theorem witness_DecodeGivesWellFormed : decode (.wire .stat1 [2]) = .ok (.statInvalid 2) := rfl

/-- Two requests that differ in every field ENC16 does not use. -/
theorem witness_UnusedFields :
    ∃ r q : Request, r.op = q.op ∧ r.val = q.val ∧ r.op.toNat = 0 ∧ r.input ≠ q.input ∧ r.peak ≠ q.peak ∧
      r.stat ≠ q.stat :=
  ⟨req 0x0, { req 0x0 with input := [1], peak := peak, stat := .stop }, by decide⟩

theorem witness_StepRuns :
    (withOne (onInput 0x8 pk)).pending = onInput 0x8 pk :: [] ∧ decode (onInput 0x8 pk) = .ok (.peakDes pk) := ⟨rfl, rfl⟩

/-- A later transaction behind one that completes and behind one that is refused, and one issued with none waiting. -/
theorem witness_LaterTransactions :
    ((withOne (onInput 0xC [1])).pending ≠ [] ∧ ∃ t, step (withOne (onInput 0xC [1])) = .next t) ∧
    ((withOne (onInput 0xF [])).pending ≠ [] ∧ step (withOne (onInput 0xF [])) = .refused .noOperation) ∧
    State.reset.pending = [] := ⟨⟨by decide, _, rfl⟩, ⟨by decide, rfl⟩, rfl⟩

/-- The transaction issued first is answered first (R40). -/
theorem test_issue_order :
    step ((State.reset.present (onInput 0xC [1])).present (onInput 0xC [0])) =
      .next { State.reset with pending := [onInput 0xC [0]], response := some (.ok (.stat .stop 1)) } := rfl

/-- One transaction in progress with none behind it, and with one behind it. -/
theorem witness_CutShort :
    (withOne (onInput 0xC [1])).pending = onInput 0xC [1] :: [] ∧
    ((withOne (onInput 0xC [1])).present (onInput 0xC [0])).pending = onInput 0xC [1] :: [onInput 0xC [0]] := by decide

/-- A transaction cut short is not answered by a later step (R161). -/
theorem test_cut_short : step (withOne (onInput 0xC [1])).resetDuring = .next State.reset := rfl

theorem witness_Idle : State.reset.pending = [] := rfl

theorem witness_OpF :
    (req 0xF).op = 0xF ∧ (withOne (.request (req 0xF))).pending = .request (req 0xF) :: [] := ⟨rfl, rfl⟩

theorem witness_EveryTransaction :
    decode (onInput 0xE [3]) = .ok (.msgDes [3]) ∧ Instr.msgDes [3] ≠ .opFRefused ∧
    (withOne (onInput 0xE [3])).pending = onInput 0xE [3] :: [] := ⟨rfl, by decide, rfl⟩

/-- Two states with different histories, a transaction that completes and one that is refused. -/
theorem witness_NothingIsHeld :
    let u : State := { pending := [onInput 0xC [1], .wire .be16 []], response := some (.raised .invalidInputLength)
                       runFault := some .invalidInputLength }
    (withOne (onInput 0xC [1])).pending = onInput 0xC [1] :: [] ∧ u.pending = onInput 0xC [1] :: [.wire .be16 []] ∧
    (∃ t, step (withOne (onInput 0xC [1])) = .next t) ∧
    step (withOne (.request (req 0xF))) = .refused .noOperation := ⟨rfl, rfl, ⟨_, rfl⟩, rfl⟩

theorem witness_Repeating :
    ∃ t : State, step { State.reset with pending := onInput 0x6 pk :: State.reset.pending } = .next t := ⟨_, rfl⟩

theorem witness_FirstTransaction :
    (withOne (onInput 0xC [1])).pending = onInput 0xC [1] :: [] ∧ (∃ t, step (withOne (onInput 0xC [1])) = .next t) ∧
    step (withOne (.request (req 0xF))) = .refused .noOperation := ⟨rfl, ⟨_, rfl⟩, rfl⟩

theorem witness_Invariant :
    (withOne (onInput 0x6 pk)).inv ∧ ∃ t, step (withOne (onInput 0x6 pk)) = .next t ∧
      t.response = some (.raised .invalidInputLength) ∧ t.runFault = some .invalidInputLength := by
  refine ⟨?_, _, rfl, rfl, rfl⟩
  unfold State.inv
  exact ⟨fun r h => (nomatch h), fun h => (nomatch h)⟩

theorem witness_CallerAndReset : (withOne (onInput 0x6 pk)).inv := witness_Invariant.1

/-- The invariant says something: a held deficit of zero breaks it. -/
theorem invariant_excludes_zero_deficit :
    ¬ State.inv { State.reset with response := some (.raised (.bufferTooShort 0)) } := by
  unfold State.inv
  intro h
  exact absurd (h.1 _ rfl) (by decide)

theorem witness_Dutiful :
    let s : State := { State.reset with pending := [onInput 0x6 raw1, onInput 0xE [3], .wire .be16 [1, 2]] }
    (∀ p ∈ s.pending, p.dutiful = true) ∧ s.good ∧ (onInput 0x6 pk).dutiful = false ∧ (onInput 0xF []).dutiful = false := by
  decide

end Sys2Proof.Tests
end

/-!
PROOFS. Family 20_memory: a deserializer's result depends on the bytes it consumes alone (R37). The decoders are shown to be
determined by their consumed bytes first; one lemma then carries that from a decoder to the operation that answers with it.
-/

namespace Sys2Proof.Machine

/-! ### What a decoder's success depends on -/

/-- R37 for a decoder: a success with `consumed = c` is the decoder's answer on every buffer with the same first `c` bytes. -/
def DeterminedByConsumed {α : Type} (d : Buffer → Decoded α) : Prop :=
  ∀ ⦃a b : Buffer⦄ ⦃v : α⦄ ⦃c : Nat⦄, d a = .ok v c → a.take c = b.take c → d b = .ok v c

theorem desFixed_eq_ok_iff {α : Type} {n c : Nat} {record : Buffer → α} {b : Buffer} {v : α} :
    desFixed n record b = .ok v c ↔ n ≤ b.length ∧ record b = v ∧ n = c := by
  by_cases h : b.length < n
  · simp [desFixed, h]
  · simp [desFixed, h, Nat.le_of_not_lt h]

theorem length_le_of_take_eq {a b : Buffer} {n : Nat} (h : a.take n = b.take n) (ha : n ≤ a.length) : n ≤ b.length := by
  have hlen := congrArg List.length h
  simp only [List.length_take] at hlen
  omega

/-- A fixed-length decoder whose record lies within the required bytes is determined by them (R106). -/
theorem desFixed_determinedByConsumed {α : Type} {n : Nat} {record : Buffer → α}
    (hrecord : ∀ b, record (b.take n) = record b) : DeterminedByConsumed (desFixed n record) := by
  intro a b v c ha hab
  obtain ⟨hlen, rfl, rfl⟩ := desFixed_eq_ok_iff.mp ha
  have hsame : record b = record a := by rw [← hrecord b, ← hab, hrecord a]
  exact desFixed_eq_ok_iff.mpr ⟨length_le_of_take_eq hab hlen, hsame, rfl⟩

/-! A field inside the first `n` bytes is read from those bytes alone (R33, R60). -/

theorem be16At_take {b : Buffer} {n i : Nat} (h : i + 2 ≤ n) : be16At (b.take n) i = be16At b i := by
  simp (disch := omega) only [be16At, byteAt_take]

theorem be32At_take {b : Buffer} {n i : Nat} (h : i + 4 ≤ n) : be32At (b.take n) i = be32At b i := by
  simp (disch := omega) only [be32At, byteAt_take]

theorem be64At_take {b : Buffer} {n i : Nat} (h : i + 8 ≤ n) : be64At (b.take n) i = be64At b i := by
  simp (disch := omega) only [be64At, byteAt_take]

theorem peak18At_take (b : Buffer) : peak18At (b.take 18) 0 = peak18At b 0 := by
  simp (disch := omega) only [peak18At, be64At_take, be32At_take, be16At_take]

theorem cfg40At_take (b : Buffer) : cfg40At (b.take 40) 0 = cfg40At b 0 := by
  simp (disch := omega) only [cfg40At, be64At_take]

theorem peakDes_determinedByConsumed : DeterminedByConsumed peakDes := desFixed_determinedByConsumed peak18At_take

theorem cfgDes_determinedByConsumed : DeterminedByConsumed cfgDes := desFixed_determinedByConsumed cfg40At_take

/-- A status byte that passes the value check is reported with the count it was checked for (R105, R126). -/
theorem consumed_of_statDecoded_ok {x : Byte} {n c : Nat} {st : Status} (h : statDecoded x n = .ok st c) : c = n := by
  cases hx : statOfByte x with
  | none => simp [statDecoded, hx] at h
  | some st' =>
    simp only [statDecoded, hx, Decoded.ok.injEq] at h
    exact h.2.symm

theorem statDes_determinedByConsumed : DeterminedByConsumed statDes := by
  intro a b st c ha hab
  cases a with
  | nil => simp [statDes] at ha
  | cons x rest =>
    obtain rfl : c = 1 := consumed_of_statDecoded_ok ha
    cases b with
    | nil => simp at hab
    | cons y rest' =>
      obtain rfl : x = y := by simpa using hab
      exact ha

/-- The consumed bytes are the message's encoding, and a buffer that begins with an encoding decodes to its message (R132). -/
theorem msgDes_determinedByConsumed : DeterminedByConsumed msgDes := by
  intro a b m c ha hab
  obtain ⟨rfl, -, hm, hbytes⟩ := msgDes_ok ha
  have hb : b = msgBytes m ++ b.drop (msgLen m) := by rw [hbytes, hab, List.take_append_drop]
  rw [hb]
  exact msgDes_msgBytes m hm _

/-! ### From the decoder to the operation -/

/-- An answer is `Ok` exactly when the decoder succeeded, and then carries its value and count. -/
theorem State.answer_response_ok {α : Type} {wrap : α → Nat → Result} {d : Decoded α} {s : State} {r : Result}
    (h : (s.answer wrap d).response = some (.ok r)) : ∃ v c, d = .ok v c ∧ r = wrap v c := by
  cases d with
  | ok v c => exact ⟨v, c, rfl, by simpa [State.answer] using h.symm⟩
  | raised e => simp [State.answer] at h

theorem exec_peakDes (input : Buffer) (s : State) : exec (.peakDes input) s = .next (s.answer .peak (peakDes input)) := rfl

theorem exec_cfgDes (input : Buffer) (s : State) : exec (.cfgDes input) s = .next (s.answer .cfg (cfgDes input)) := rfl

theorem exec_statDes (input : Buffer) (s : State) : exec (.statDes input) s = .next (s.answer .stat (statDes input)) := rfl

theorem exec_msgDes (input : Buffer) (s : State) : exec (.msgDes input) s = .next (s.answer .msg (msgDes input)) := rfl

/-- R37 for an operation: it gives the same next state on every buffer with the same consumed bytes. -/
def ExecDeterminedByConsumed (op : Buffer → Instr) : Prop :=
  ∀ (a b : Buffer) (s t : State) (r : Result) (c : Nat),
    exec (op a) s = .next t → t.response = some (.ok r) → r.consumed = some c → a.take c = b.take c →
    exec (op b) s = .next t

/-- An operation that answers with its decoder's outcome inherits R37 from the decoder. -/
theorem exec_determinedByConsumed {α : Type} {op : Buffer → Instr} {wrap : α → Nat → Result} {d : Buffer → Decoded α}
    (hexec : ∀ input s, exec (op input) s = .next (s.answer wrap (d input)))
    (hwrap : ∀ v c, (wrap v c).consumed = some c) (hd : DeterminedByConsumed d) : ExecDeterminedByConsumed op := by
  intro a b s t r c ha hok hconsumed hab
  rw [hexec, Host.Outcome.next.injEq] at ha
  subst ha
  obtain ⟨v, k, hda, rfl⟩ := State.answer_response_ok hok
  obtain rfl : k = c := by simpa [hwrap] using hconsumed
  rw [hexec, hda, hd hda hab]

/-! ### UNPACK_PEAK -/

/-- UNPACK_PEAK raises `FLT` on every other length than 12 (R93). -/
theorem exec_unpackPeak_fault {input : Buffer} (h : input.length ≠ 12) (s : State) :
    exec (.unpackPeak input) s = .next (s.raise .invalidInputLength) :=
  if_neg h

/-- Settles O32: each deserializer inherits R37 from its decoder; with a byte appended, UNPACK_PEAK's length test fails. -/
theorem trailingBytesDoNotMatter : Obligations.TrailingBytesDoNotMatter := by
  refine ⟨fun op hop => ?_, fun a extra s ha hextra => ?_⟩
  · change ExecDeterminedByConsumed op
    simp only [List.mem_cons, List.not_mem_nil, or_false] at hop
    obtain rfl | rfl | rfl | rfl := hop
    · exact exec_determinedByConsumed exec_peakDes (fun _ _ => rfl) peakDes_determinedByConsumed
    · exact exec_determinedByConsumed exec_cfgDes (fun _ _ => rfl) cfgDes_determinedByConsumed
    · exact exec_determinedByConsumed exec_statDes (fun _ _ => rfl) statDes_determinedByConsumed
    · exact exec_determinedByConsumed exec_msgDes (fun _ _ => rfl) msgDes_determinedByConsumed
  · have hpos : 0 < extra.length := List.length_pos_iff.mpr hextra
    have hlen : (a ++ extra).length ≠ 12 := by rw [List.length_append]; omega
    exact ⟨_, exec_unpackPeak_fault hlen s, State.raise_response _ s⟩

end Sys2Proof.Machine

/-!
PROOFS. Family 30_encoding: the reserved values of the encoding are rejected by name, whatever else the transaction holds: a tag
from 3 up (R62), a status byte from 2 up (R63), and the op value 0xF (R71).
-/

namespace Sys2Proof.Machine

/-! ### Reserved tags and status bytes -/

/-- A decoder's `InvalidDiscriminant` is the whole response: it carries no payload and marks no fault (R142). -/
theorem State.answer_invalidDiscriminant {α : Type} (wrap : α → Nat → Result) (s : State) :
    s.answer wrap (.raised .invalidDiscriminant) = { s with response := some (.raised .invalidDiscriminant) } :=
  State.answer_eq wrap _ s

theorem statOfByte_eq_none_of_two_le {x : Byte} (h : 2 ≤ x.toNat) : statOfByte x = none := by
  have h0 : x.toNat ≠ 0 := by omega
  have h1 : x.toNat ≠ 1 := by omega
  rw [statOfByte_eq, if_neg h0, if_neg h1]

/-- The value check both readers of a status byte share rejects 2 and above (R63). -/
theorem statDecoded_of_two_le {x : Byte} (h : 2 ≤ x.toNat) (consumed : Nat) :
    statDecoded x consumed = .raised .invalidDiscriminant := by
  rw [statDecoded, statOfByte_eq_none_of_two_le h]

theorem statDes_of_two_le {x : Byte} (h : 2 ≤ x.toNat) (rest : Buffer) :
    statDes (x :: rest) = .raised .invalidDiscriminant :=
  statDecoded_of_two_le h Config.statLen

/-- Once a byte stands behind the tag `Status`, the length test has passed and its value decides (R126). -/
theorem msgDes_status_of_two_le {x : Byte} (h : 2 ≤ x.toNat) (rest : Buffer) :
    msgDes (tagStatus :: x :: rest) = .raised .invalidDiscriminant := by
  have hlen : ¬ (tagStatus :: x :: rest).length < Config.msgStatusLen := by simp
  rw [msgDes_status, statusDes, if_neg hlen, byteAt_cons_succ, byteAt_cons_zero, statDecoded_of_two_le h]

/-- Settles O21: no variant has such a tag, so nothing behind it is looked at. -/
theorem msgDesRejectsOtherTags : Obligations.MsgDesRejectsOtherTags := by
  intro tag rest s htag
  rw [exec_msgDes, msgDes_other htag, State.answer_invalidDiscriminant]

/-- Settles O25: both readers end in the same value check of the status byte. -/
theorem invalidStatusBytesAreRejected : Obligations.InvalidStatusBytesAreRejected := by
  intro x rest s hx
  constructor
  · rw [exec_statDes, statDes_of_two_le hx, State.answer_invalidDiscriminant]
  · change exec (.msgDes (tagStatus :: x :: rest)) s = _
    rw [exec_msgDes, msgDes_status_of_two_le hx, State.answer_invalidDiscriminant]

/-! ### The op value that names no operation -/

/-- A step performs the oldest transaction on the state without it (R38, R40). -/
theorem step_of_decode_ok {s : State} {p : Presented} {rest : List Presented} {i : Instr} (hs : s.pending = p :: rest)
    (hp : decode p = .ok i) : step s = exec i { s with pending := rest } := by
  simp only [step, State.take?_cons hs, hp]

theorem decode_request_opF {r : Request} (h : r.op = 0xF) : decode (.request r) = .ok .opFRefused := by
  simp [decode, decodeRequest, h]

theorem exec_opFRefused (s : State) : exec .opFRefused s = .refused .noOperation := rfl

/-- Settles O50: the decoder looks at `op` alone, and the instruction it gives has no meaning in any state. -/
theorem opFIsRefused : Obligations.OpFIsRefused := by
  refine ⟨fun r hop => decode_request_opF hop, exec_opFRefused, fun s r rest hop hs => ?_⟩
  rw [step_of_decode_ok hs (decode_request_opF hop), exec_opFRefused]

end Sys2Proof.Machine

/-!
PROOFS. Family 40_primitive_codec: the shift-and-mask codec of the model writes and reads the most significant byte first
(R80 to R85). Both halves have one arithmetic lemma per width; the operations' requests and completions come after them.
-/

namespace Sys2Proof.Machine

/-! ### The codec in terms of numbers -/

/-- The first byte is the most significant one (R51). -/
theorem beBytes_succ (n v : Nat) : Spec.beBytes (n + 1) v = BitVec.ofNat 8 (v / 256 ^ n) :: Spec.beBytes n v := by
  have hindex (i : Nat) : n - 1 - i = n - (i + 1) := by omega
  simp only [Spec.beBytes, List.range_succ_eq_map, List.map_cons, List.map_map, Function.comp_def, Nat.add_sub_cancel,
    Nat.sub_zero, Nat.succ_eq_add_one, hindex]

@[simp] theorem beBytes_zero (v : Nat) : Spec.beBytes 0 v = [] := rfl

theorem beEnc16_eq_beBytes (v : BitVec 16) : beEnc16 v = Spec.beBytes 2 v.toNat := by
  simp [beEnc16, beBytes_succ, extractLsb'_byte]

theorem beEnc32_eq_beBytes (v : BitVec 32) : beEnc32 v = Spec.beBytes 4 v.toNat := by
  simp [beEnc32, beBytes_succ, extractLsb'_byte]

theorem beEnc64_eq_beBytes (v : BitVec 64) : beEnc64 v = Spec.beBytes 8 v.toNat := by
  simp [beEnc64, beBytes_succ, extractLsb'_byte]

theorem toNat_beDec16_eq_beValue (b0 b1 : Byte) : (beDec16 b0 b1).toNat = Spec.beValue [b0, b1] := by
  simp [toNat_beDec16, Spec.beValue]

theorem toNat_beDec32_eq_beValue (b0 b1 b2 b3 : Byte) :
    (beDec32 b0 b1 b2 b3).toNat = Spec.beValue [b0, b1, b2, b3] := by
  simp [toNat_beDec32, Spec.beValue]

theorem toNat_beDec64_eq_beValue (b0 b1 b2 b3 b4 b5 b6 b7 : Byte) :
    (beDec64 b0 b1 b2 b3 b4 b5 b6 b7).toNat = Spec.beValue [b0, b1, b2, b3, b4, b5, b6, b7] := by
  simp [toNat_beDec64, Spec.beValue]

/-! ### The requests -/

theorem decode_request_enc16 {r : Request} (h : r.op = 0x0) : decode (.request r) = .ok (.enc16 (r.val.setWidth 16)) := by
  simp [decode, decodeRequest, h]

theorem decode_request_enc32 {r : Request} (h : r.op = 0x1) : decode (.request r) = .ok (.enc32 (r.val.setWidth 32)) := by
  simp [decode, decodeRequest, h]

theorem decode_request_enc64 {r : Request} (h : r.op = 0x2) : decode (.request r) = .ok (.enc64 r.val) := by
  simp [decode, decodeRequest, h]

theorem decode_request_dec16 {r : Request} (h : r.op = 0x3) : decode (.request r) = decodeDec16 r.input := by
  simp [decode, decodeRequest, h]

theorem decode_request_dec32 {r : Request} (h : r.op = 0x4) : decode (.request r) = decodeDec32 r.input := by
  simp [decode, decodeRequest, h]

theorem decode_request_dec64 {r : Request} (h : r.op = 0x5) : decode (.request r) = decodeDec64 r.input := by
  simp [decode, decodeRequest, h]

/-- A `val` that is a value of the operation's width is the operand, whatever the width of the field that carries it (R11). -/
theorem setWidth_eq_of_toNat_eq {m n : Nat} {x : BitVec m} {v : BitVec n} (h : x.toNat = v.toNat) : x.setWidth n = v := by
  apply BitVec.eq_of_toNat_eq
  rw [BitVec.toNat_setWidth, h, Nat.mod_eq_of_lt v.isLt]

/-! ### The completions -/

/-- Completion writes the response and nothing else (R12, R13). -/
theorem State.complete_eq (r : Result) (s : State) : s.complete r = { s with response := some (.ok r) } := rfl

theorem exec_enc16 (v : BitVec 16) (s : State) : exec (.enc16 v) s = .next (s.complete (.out (beEnc16 v))) := rfl

theorem exec_enc32 (v : BitVec 32) (s : State) : exec (.enc32 v) s = .next (s.complete (.out (beEnc32 v))) := rfl

theorem exec_enc64 (v : BitVec 64) (s : State) : exec (.enc64 v) s = .next (s.complete (.out (beEnc64 v))) := rfl

theorem exec_dec16 (b0 b1 : Byte) (s : State) : exec (.dec16 b0 b1) s = .next (s.complete (.val16 (beDec16 b0 b1))) := rfl

theorem exec_dec32 (b0 b1 b2 b3 : Byte) (s : State) :
    exec (.dec32 b0 b1 b2 b3) s = .next (s.complete (.val32 (beDec32 b0 b1 b2 b3))) := rfl

theorem exec_dec64 (b0 b1 b2 b3 b4 b5 b6 b7 : Byte) (s : State) :
    exec (.dec64 b0 b1 b2 b3 b4 b5 b6 b7) s = .next (s.complete (.val64 (beDec64 b0 b1 b2 b3 b4 b5 b6 b7))) := rfl

/-- Settles O1: the piece a shift and mask cuts out at byte `i` is the quotient by a power of 256. -/
theorem primitiveEncodersWriteMostSignificantByteFirst : Obligations.PrimitiveEncodersWriteMostSignificantByteFirst := by
  refine ⟨fun r v hop hval => ?_, fun r v hop hval => ?_, fun r v hop hval => ?_, fun v s => ?_, fun v s => ?_, fun v s => ?_⟩
  · rw [decode_request_enc16 hop, setWidth_eq_of_toNat_eq hval]
  · rw [decode_request_enc32 hop, setWidth_eq_of_toNat_eq hval]
  · rw [decode_request_enc64 hop, BitVec.eq_of_toNat_eq hval]
  · rw [exec_enc16, beEnc16_eq_beBytes, State.complete_eq]
  · rw [exec_enc32, beEnc32_eq_beBytes, State.complete_eq]
  · rw [exec_enc64, beEnc64_eq_beBytes, State.complete_eq]

/-- Settles O3: the OR of the shifted bytes is their number in base 256, which fits the width. -/
theorem primitiveDecodersReadMostSignificantByteFirst : Obligations.PrimitiveDecodersReadMostSignificantByteFirst := by
  refine ⟨fun r b0 b1 hop hin => ?_, fun r b0 b1 b2 b3 hop hin => ?_, fun r b0 b1 b2 b3 b4 b5 b6 b7 hop hin => ?_,
    fun b0 b1 s => ?_, fun b0 b1 b2 b3 s => ?_, fun b0 b1 b2 b3 b4 b5 b6 b7 s => ?_⟩
  · rw [decode_request_dec16 hop, hin, decodeDec16]
  · rw [decode_request_dec32 hop, hin, decodeDec32]
  · rw [decode_request_dec64 hop, hin, decodeDec64]
  · rw [exec_dec16, ← toNat_beDec16_eq_beValue, BitVec.ofNat_toNat, BitVec.setWidth_eq, State.complete_eq]
  · rw [exec_dec32, ← toNat_beDec32_eq_beValue, BitVec.ofNat_toNat, BitVec.setWidth_eq, State.complete_eq]
  · rw [exec_dec64, ← toNat_beDec64_eq_beValue, BitVec.ofNat_toNat, BitVec.setWidth_eq, State.complete_eq]

end Sys2Proof.Machine

/-!
PROOFS. Family 41_packed_peak_decoder: UNPACK_PEAK gives the four packed fields as numbers (R90, R91). The record as sums of
bytes comes from the laws of the sensor-native record, for every buffer; the operation then reads it off twelve named bytes.
-/

namespace Sys2Proof.Machine

theorem decode_request_unpackPeak {r : Request} (h : r.op = 0x6) : decode (.request r) = .ok (.unpackPeak r.input) := by
  simp [decode, decodeRequest, h]

/-- UNPACK_PEAK succeeds on every 12 bytes, whatever they hold (R94). -/
theorem exec_unpackPeak_ok {input : Buffer} (h : input.length = 12) (s : State) :
    exec (.unpackPeak input) s = .next (s.complete (.unpacked (packed12Peak input))) :=
  if_pos h

/-- The shifts and masks of R91 are sums of quotients and remainders: no two pieces of a field overlap, and each field's
native width fits the field of the record it is zero-extended into. -/
theorem packed12Peak_eq (b : Buffer) :
    packed12Peak b =
      { timestamp := BitVec.ofNat 64
          ((byteAt b 0).toNat + 2 ^ 8 * (byteAt b 1).toNat + 2 ^ 16 * (byteAt b 2).toNat + 2 ^ 24 * (byteAt b 3).toNat
            + 2 ^ 32 * (byteAt b 4).toNat)
        peakHeight := BitVec.ofNat 32
          ((byteAt b 8).toNat / 16 + 2 ^ 4 * (byteAt b 9).toNat + 2 ^ 12 * (byteAt b 10).toNat + 2 ^ 20 * (byteAt b 11).toNat)
        speed := BitVec.ofNat 16 ((byteAt b 7).toNat / 4 + 2 ^ 6 * ((byteAt b 8).toNat % 16))
        cycle := BitVec.ofNat 32 ((byteAt b 5).toNat + 2 ^ 8 * (byteAt b 6).toNat + 2 ^ 16 * ((byteAt b 7).toNat % 4)) } := by
  rw [← toNat_packed_timestamp, ← toNat_packed_peakHeight, ← toNat_packed_speed, ← toNat_packed_cycle]
  simp only [BitVec.ofNat_toNat, BitVec.setWidth_eq]

/-- Settles O6: the operation completes with the record of R91, whose fields are sums of the twelve bytes; on another length
its length test fails. -/
theorem unpackPeakExtractsTheFourFields : Obligations.UnpackPeakExtractsTheFourFields := by
  refine ⟨fun r hop => decode_request_unpackPeak hop, fun b0 b1 b2 b3 b4 b5 b6 b7 b8 b9 b10 b11 s => ?_, fun input s hlen => ?_⟩
  · rw [exec_unpackPeak_ok rfl, State.complete_eq, packed12Peak_eq]
    simp only [byteAt_cons_zero, byteAt_cons_succ]
  · exact ⟨_, exec_unpackPeak_fault hlen s, State.raise_response _ s⟩

end Sys2Proof.Machine

/-!
PROOFS. Family 42_canonical_records: the record serializers write, and the deserializers read, the tables of R53 to R55. The
fields' codec becomes the tables' numbers first, then the records', then each operation's completion; no field's value is
checked except the status byte's (R111).
-/

namespace Sys2Proof.Machine

/-! ### The records in terms of numbers -/

theorem peak18Bytes_eq_peakBytes (p : MeasuredPeak) : peak18Bytes p = Spec.peakBytes p := by
  rw [peak18Bytes, beEnc64_eq_beBytes, beEnc32_eq_beBytes, beEnc16_eq_beBytes, beEnc32_eq_beBytes, Spec.peakBytes]

theorem cfg40Bytes_eq_cfgBytes (c : FilterConfig) : cfg40Bytes c = Spec.cfgBytes c := by
  simp only [cfg40Bytes, beEnc64_eq_beBytes, Spec.cfgBytes]

/-! A field that lies inside the buffer is the number its bytes hold (R33, R60). -/

theorem be16At_eq_beValue {b : Buffer} {a : Nat} (h : a + 2 ≤ b.length) :
    be16At b a = BitVec.ofNat 16 (Spec.beValue (memRead b a 2)) := by
  have hread : memRead b a 2 = [byteAt b a, byteAt b (a + 1)] := by
    simp (disch := omega) only [memRead_succ, memRead_zero]
  rw [hread, ← toNat_beDec16_eq_beValue, BitVec.ofNat_toNat, BitVec.setWidth_eq, be16At]

theorem be32At_eq_beValue {b : Buffer} {a : Nat} (h : a + 4 ≤ b.length) :
    be32At b a = BitVec.ofNat 32 (Spec.beValue (memRead b a 4)) := by
  have hread : memRead b a 4 = [byteAt b a, byteAt b (a + 1), byteAt b (a + 2), byteAt b (a + 3)] := by
    simp (disch := omega) only [memRead_succ, memRead_zero]
  rw [hread, ← toNat_beDec32_eq_beValue, BitVec.ofNat_toNat, BitVec.setWidth_eq, be32At]

theorem be64At_eq_beValue {b : Buffer} {a : Nat} (h : a + 8 ≤ b.length) :
    be64At b a = BitVec.ofNat 64 (Spec.beValue (memRead b a 8)) := by
  have hread : memRead b a 8 = [byteAt b a, byteAt b (a + 1), byteAt b (a + 2), byteAt b (a + 3),
      byteAt b (a + 4), byteAt b (a + 5), byteAt b (a + 6), byteAt b (a + 7)] := by
    simp (disch := omega) only [memRead_succ, memRead_zero]
  rw [hread, ← toNat_beDec64_eq_beValue, BitVec.ofNat_toNat, BitVec.setWidth_eq, be64At]

theorem peak18At_eq_peakAt {b : Buffer} {a : Nat} (h : a + 18 ≤ b.length) : peak18At b a = Spec.peakAt b a := by
  simp (disch := omega) only [peak18At, be64At_eq_beValue, be32At_eq_beValue, be16At_eq_beValue, Spec.peakAt]

theorem cfg40At_eq_cfgAt {b : Buffer} {a : Nat} (h : a + 40 ≤ b.length) : cfg40At b a = Spec.cfgAt b a := by
  simp (disch := omega) only [cfg40At, be64At_eq_beValue, Spec.cfgAt]

/-! ### The requests -/

theorem decode_request_peakSer {r : Request} (h : r.op = 0x7) : decode (.request r) = .ok (.peakSer r.peak) := by
  simp [decode, decodeRequest, h]

theorem decode_request_peakDes {r : Request} (h : r.op = 0x8) : decode (.request r) = .ok (.peakDes r.input) := by
  simp [decode, decodeRequest, h]

theorem decode_request_cfgSer {r : Request} (h : r.op = 0x9) : decode (.request r) = .ok (.cfgSer r.cfg) := by
  simp [decode, decodeRequest, h]

theorem decode_request_cfgDes {r : Request} (h : r.op = 0xA) : decode (.request r) = .ok (.cfgDes r.input) := by
  simp [decode, decodeRequest, h]

theorem decode_request_statSer {r : Request} (h : r.op = 0xB) : decode (.request r) = .ok (.statSer r.stat) := by
  simp [decode, decodeRequest, h]

theorem decode_request_statDes {r : Request} (h : r.op = 0xC) : decode (.request r) = .ok (.statDes r.input) := by
  simp [decode, decodeRequest, h]

/-! ### The serializers -/

theorem exec_peakSer (p : MeasuredPeak) (s : State) : exec (.peakSer p) s = .next (s.complete (.out (peak18Bytes p))) := rfl

theorem exec_cfgSer (c : FilterConfig) (s : State) : exec (.cfgSer c) s = .next (s.complete (.out (cfg40Bytes c))) := rfl

theorem exec_statSer (st : Status) (s : State) : exec (.statSer st) s = .next (s.complete (.out [statByte st])) := rfl

/-- Settles O10: each serializer completes with its fields' encodings one after another, whose lengths are fixed. -/
theorem recordSerializersWriteTheirFormats : Obligations.RecordSerializersWriteTheirFormats := by
  refine ⟨fun r hop => decode_request_peakSer hop, fun r hop => decode_request_cfgSer hop,
    fun r hop => decode_request_statSer hop, fun p s => ?_, fun c s => ?_, exec_statSer .start, exec_statSer .stop⟩
  · rw [← peak18Bytes_eq_peakBytes]
    exact ⟨exec_peakSer p s, length_peak18Bytes p⟩
  · rw [← cfg40Bytes_eq_cfgBytes]
    exact ⟨exec_cfgSer c s, length_cfg40Bytes c⟩

/-! ### The fixed-length deserializers -/

/-- The length test alone decides how a fixed-length decode is answered (R106). -/
theorem responseOf_desFixed {α : Type} (wrap : α → Nat → Result) (n : Nat) (record : Buffer → α) (b : Buffer) :
    responseOf wrap (desFixed n record b) =
      if b.length < n then .raised (.bufferTooShort (n - b.length)) else .ok (wrap (record b) n) := by
  by_cases h : b.length < n
  · rw [desFixed, if_pos h, if_pos h]
    rfl
  · rw [desFixed, if_neg h, if_neg h]
    rfl

/-- PEAK_DES changes the response alone, which its length test decides (R101). -/
theorem exec_peakDes_eq (b : Buffer) (s : State) :
    exec (.peakDes b) s = .next { s with response := some (if b.length < 18 then .raised (.bufferTooShort (18 - b.length))
      else .ok (.peak (peak18At b 0) 18)) } := by
  rw [exec_peakDes, State.answer_eq, peakDes, responseOf_desFixed]

/-- CFG_DES changes the response alone, which its length test decides (R103). -/
theorem exec_cfgDes_eq (b : Buffer) (s : State) :
    exec (.cfgDes b) s = .next { s with response := some (if b.length < 40 then .raised (.bufferTooShort (40 - b.length))
      else .ok (.cfg (cfg40At b 0) 40)) } := by
  rw [exec_cfgDes, State.answer_eq, cfgDes, responseOf_desFixed]

/-- Settles O11: past the length test every field lies inside the buffer and is the number its bytes hold. -/
theorem peakDesReadsTheCanonicalRecord : Obligations.PeakDesReadsTheCanonicalRecord := by
  refine ⟨fun r hop => decode_request_peakDes hop, fun b s => ?_⟩
  rw [exec_peakDes_eq]
  by_cases h : b.length < 18
  · rw [if_pos h, if_pos h]
  · rw [if_neg h, if_neg h, peak18At_eq_peakAt (by omega)]

/-- Settles O12: past the length test every field lies inside the buffer and is the number its bytes hold. -/
theorem cfgDesReadsTheConfigurationRecord : Obligations.CfgDesReadsTheConfigurationRecord := by
  refine ⟨fun r hop => decode_request_cfgDes hop, fun b s => ?_⟩
  rw [exec_cfgDes_eq]
  by_cases h : b.length < 40
  · rw [if_pos h, if_pos h]
  · rw [if_neg h, if_neg h, cfg40At_eq_cfgAt (by omega)]

/-! ### The status deserializer -/

/-- STAT_DES compares the whole first byte and changes the response alone (R105). -/
theorem exec_statDes_cons (x : Byte) (rest : Buffer) (s : State) :
    exec (.statDes (x :: rest)) s =
      .next { s with response := some (if x.toNat = 0 then .ok (.stat .start 1) else if x.toNat = 1 then .ok (.stat .stop 1)
        else .raised .invalidDiscriminant) } := by
  rw [exec_statDes, State.answer_eq, statDes, statDecoded, statOfByte_eq]
  by_cases h0 : x.toNat = 0
  · simp only [if_pos h0, responseOf]
  · by_cases h1 : x.toNat = 1
    · simp only [if_neg h0, if_pos h1, responseOf]
    · simp only [if_neg h0, if_neg h1, responseOf, abnormalOf]

/-- Settles O13: the empty buffer fails the length test, and on any other the value of byte 0 decides. -/
theorem statDesReadsTheStatusByte : Obligations.StatDesReadsTheStatusByte := by
  refine ⟨fun r hop => decode_request_statDes hop, fun s => ?_, exec_statDes_cons⟩
  rw [exec_statDes, State.answer_eq]
  rfl

/-! ### No other check -/

/-- A buffer of a peak's length decodes, whatever it holds (R101, R111). -/
theorem exec_peakDes_ok {b : Buffer} (h : b.length = 18) (s : State) :
    exec (.peakDes b) s = .next { s with response := some (.ok (.peak (peak18At b 0) 18)) } := by
  rw [exec_peakDes_eq, if_neg (by omega)]

/-- A buffer of a configuration's length decodes, whatever it holds (R103, R111). -/
theorem exec_cfgDes_ok {b : Buffer} (h : b.length = 40) (s : State) :
    exec (.cfgDes b) s = .next { s with response := some (.ok (.cfg (cfg40At b 0) 40)) } := by
  rw [exec_cfgDes_eq, if_neg (by omega)]

theorem peak18At_peak18Bytes_zero (p : MeasuredPeak) : peak18At (peak18Bytes p) 0 = p := by
  simpa using peak18At_peak18Bytes p []

theorem cfg40At_cfg40Bytes_zero (c : FilterConfig) : cfg40At (cfg40Bytes c) 0 = c := by
  simpa using cfg40At_cfg40Bytes c []

/-- STAT_DES of one byte succeeds exactly on the two status values (R105). -/
theorem exec_statDes_accepts_iff (x : Byte) (s : State) :
    (∃ st, exec (.statDes [x]) s = .next { s with response := some (.ok (.stat st 1)) }) ↔ x.toNat < 2 := by
  rw [exec_statDes_cons]
  by_cases h0 : x.toNat = 0
  · simp [h0]
  · by_cases h1 : x.toNat = 1
    · simp [h1]
    · have h2 : ¬ x.toNat < 2 := by omega
      simp [h0, h1, h2]

/-- Settles O16: every value is decoded from its own encoding, and only the length test and the status byte's value can fail. -/
theorem canonicalDecodersCheckNoRange : Obligations.CanonicalDecodersCheckNoRange := by
  refine ⟨fun p s => ⟨peak18Bytes p, length_peak18Bytes p, ?_⟩, fun c s => ⟨cfg40Bytes c, length_cfg40Bytes c, ?_⟩,
    fun b s hlen => ⟨_, exec_peakDes_ok hlen s⟩, fun b s hlen => ⟨_, exec_cfgDes_ok hlen s⟩, exec_statDes_accepts_iff⟩
  · rw [exec_peakDes_ok (length_peak18Bytes p), peak18At_peak18Bytes_zero]
  · rw [exec_cfgDes_ok (length_cfg40Bytes c), cfg40At_cfg40Bytes_zero]

end Sys2Proof.Machine

/-!
PROOFS. Family 43_message_envelope: what MSG_SER writes for Status and Config messages (R122, R123), and what MSG_DES reads behind
each tag (R125 to R127). The count and the peaks become numbers first; each variant's length tests then decide its answer.
-/

namespace Sys2Proof.Machine

/-! ### The count and the peaks in terms of numbers -/

theorem beValue_beEnc64 (v : BitVec 64) : Spec.beValue (beEnc64 v) = v.toNat := by
  rw [beEnc64, ← toNat_beDec64_eq_beValue]
  exact congrArg BitVec.toNat (be64At_beEnc64 v [])

/-- The number eight bytes hold fits a `BE64` field, so a count is read without wrapping (R60, R135). -/
theorem toNat_be64At_eq_beValue {b : Buffer} {a : Nat} (h : a + 8 ≤ b.length) :
    (be64At b a).toNat = Spec.beValue (memRead b a 8) := by
  rw [← beEnc64_be64At h, beValue_beEnc64]

/-- Peak `i` of a run of records stands 18 `i` bytes behind the first (R57). -/
theorem peaks18At_eq_map_peakAt {b : Buffer} {a n : Nat} (h : a + 18 * n ≤ b.length) :
    peaks18At b a n = (List.range n).map fun i => Spec.peakAt b (a + 18 * i) := by
  induction n generalizing a with
  | zero => rfl
  | succ n ih =>
    have hoffset (i : Nat) : a + 18 + 18 * i = a + 18 * (i + 1) := by omega
    rw [peaks18At, peak18At_eq_peakAt (by omega), Config.peakLen, ih (by omega), List.range_succ_eq_map, List.map_cons, List.map_map]
    simp only [hoffset, Function.comp_def, Nat.mul_zero, Nat.add_zero, Nat.succ_eq_add_one]

/-! ### The deserializer -/

/-- MSG_DES changes the response alone, which its decoder decides (R124). -/
theorem exec_msgDes_eq (b : Buffer) (s : State) :
    exec (.msgDes b) s = .next { s with response := some (responseOf .msg (msgDes b)) } := by
  rw [exec_msgDes, State.answer_eq]

/-- The header test, then the payload test, decide how a `Data` buffer is answered; past both, the count and every peak lie inside
the buffer and are the numbers their bytes hold (R125). -/
theorem responseOf_dataDes (b : Buffer) :
    responseOf .msg (dataDes b) =
      if b.length < 9 then .raised (.bufferTooShort (9 - b.length))
      else if b.length - 9 < Spec.beValue (memRead b 1 8) * 18 then
        .raised (.bufferTooShort (Spec.beValue (memRead b 1 8) * 18 - (b.length - 9)))
      else .ok (.msg (.data ((List.range (Spec.beValue (memRead b 1 8))).map fun i => Spec.peakAt b (9 + 18 * i)))
        (9 + 18 * Spec.beValue (memRead b 1 8))) := by
  by_cases hheader : b.length < 9
  · rw [dataDes, if_pos hheader, if_pos hheader]
    rfl
  · rw [dataDes, if_neg hheader, if_neg hheader]
    simp only [toNat_be64At_eq_beValue (show 1 + 8 ≤ b.length by omega)]
    generalize Spec.beValue (memRead b 1 8) = n
    by_cases hpayload : b.length - 9 < n * 18
    · rw [if_pos hpayload, if_pos hpayload]
      rfl
    · rw [if_neg hpayload, if_neg hpayload, Config.dataHdrLen, peaks18At_eq_map_peakAt (by omega)]
      rfl

/-- Settles O22: behind the tag `Data` the decoder's two length tests decide. -/
theorem msgDesReadsData : Obligations.MsgDesReadsData := by
  intro rest s
  change exec (.msgDes (tagData :: rest)) s = _
  rw [exec_msgDes_eq, msgDes_data, responseOf_dataDes]
  rfl

/-- The length test alone decides how a `Config` buffer is answered; past it the five fields lie inside the buffer and are the
numbers their bytes hold (R127). -/
theorem responseOf_configDes (b : Buffer) :
    responseOf .msg (configDes b) =
      if b.length < 41 then .raised (.bufferTooShort (41 - b.length)) else .ok (.msg (.config (Spec.cfgAt b 1)) 41) := by
  rw [configDes, responseOf_desFixed]
  by_cases h : b.length < 41
  · rw [if_pos h, if_pos h]
  · rw [if_neg h, if_neg h, cfg40At_eq_cfgAt (by omega)]

/-- Settles O24: behind the tag `Config` the decoder's length test decides. -/
theorem msgDesReadsConfig : Obligations.MsgDesReadsConfig := by
  intro rest s
  change exec (.msgDes (tagConfig :: rest)) s = _
  rw [exec_msgDes_eq, msgDes_config, responseOf_configDes]
  rfl

/-- Once a byte stands behind the tag `Status`, its value decides (R126). -/
theorem responseOf_msgDes_status (x : Byte) (rest : Buffer) :
    responseOf .msg (msgDes (tagStatus :: x :: rest)) =
      if x.toNat = 0 then .ok (.msg (.status .start) 2) else if x.toNat = 1 then .ok (.msg (.status .stop) 2)
      else .raised .invalidDiscriminant := by
  have hlen : ¬ (tagStatus :: x :: rest).length < Config.msgStatusLen := by simp
  rw [msgDes_status, statusDes, if_neg hlen, byteAt_cons_succ, byteAt_cons_zero, statDecoded, statOfByte_eq]
  by_cases h0 : x.toNat = 0
  · rw [if_pos h0, if_pos h0]
    rfl
  · by_cases h1 : x.toNat = 1
    · rw [if_neg h0, if_neg h0, if_pos h1, if_pos h1]
      rfl
    · rw [if_neg h0, if_neg h0, if_neg h1, if_neg h1]
      rfl

/-- Settles O23: the tag alone fails the length test, and on any longer buffer the value of byte 1 decides. -/
theorem msgDesReadsStatus : Obligations.MsgDesReadsStatus := by
  refine ⟨fun s => ?_, fun x rest s => ?_⟩
  · rw [exec_msgDes_eq]
    rfl
  · change exec (.msgDes (tagStatus :: x :: rest)) s = _
    rw [exec_msgDes_eq, responseOf_msgDes_status]

/-! ### The serializer -/

theorem exec_msgSer_status (st : Status) (s : State) :
    exec (.msgSer (.status st)) s = .next (s.complete (.out [tagStatus, statByte st])) := rfl

theorem exec_msgSer_config (c : FilterConfig) (s : State) :
    exec (.msgSer (.config c)) s = .next (s.complete (.out (tagConfig :: cfg40Bytes c))) := rfl

/-- Settles O17: MSG_SER completes with the tag and then the variant's record. -/
theorem msgSerWritesStatusAndConfig : Obligations.MsgSerWritesStatusAndConfig := by
  refine ⟨exec_msgSer_status .start, exec_msgSer_status .stop, fun c s => ?_⟩
  rw [exec_msgSer_config, cfg40Bytes_eq_cfgBytes, State.complete_eq, tagConfig]

end Sys2Proof.Machine

/-!
PROOFS. Family 60_exceptions: which operation ends in which outcome (R144). The code of a response becomes a function of the
decoder's tests first, one lemma per kind of test; each operation then ends in the code of the response it is known to give.
-/

namespace Sys2Proof.Machine

/-! ### The code an instruction ends in -/

/-- R144 for one instruction: it answers, and its response has this code. -/
def EndsIn (i : Instr) (s : State) (code : BitVec 2) : Prop :=
  ∃ t r, exec i s = .next t ∧ t.response = some r ∧ r.status = code

/-- A completion is an OK outcome, whatever its result (R12, R140). -/
theorem endsIn_ok_of_complete {i : Instr} {s : State} {r : Result} (h : exec i s = .next (s.complete r)) : EndsIn i s 0 :=
  ⟨_, _, h, State.complete_response r s, rfl⟩

/-- A deserializer ends in the code of its decoder's response. -/
theorem endsIn_of_answer {α : Type} {i : Instr} {s : State} {wrap : α → Nat → Result} {d : Decoded α}
    {code : BitVec 2} (hexec : exec i s = .next (s.answer wrap d)) (hcode : (responseOf wrap d).status = code) :
    EndsIn i s code := by
  rw [State.answer_eq] at hexec
  exact ⟨_, _, hexec, rfl, hcode⟩

/-! ### The code of a decoder's response, test by test -/

@[simp] theorem status_ok (r : Result) : (Response.ok r).status = 0 := rfl

@[simp] theorem status_bufferTooShort (n : Nat) : (Response.raised (.bufferTooShort n)).status = 1 := rfl

/-- A fixed-length decode ends in OK or BTS, as its length test says (R106). -/
theorem status_desFixed {α : Type} (wrap : α → Nat → Result) (n : Nat) (record : Buffer → α) (b : Buffer) :
    (responseOf wrap (desFixed n record b)).status = if n ≤ b.length then 0 else 1 := by
  rw [responseOf_desFixed]
  by_cases h : b.length < n
  · rw [if_pos h, if_neg (Nat.not_le_of_lt h), status_bufferTooShort]
  · rw [if_neg h, if_pos (Nat.le_of_not_lt h), status_ok]

theorem status_peakDes (b : Buffer) : (responseOf .peak (peakDes b)).status = if 18 ≤ b.length then 0 else 1 :=
  status_desFixed .peak 18 (fun b => peak18At b 0) b

theorem status_cfgDes (b : Buffer) : (responseOf .cfg (cfgDes b)).status = if 40 ≤ b.length then 0 else 1 :=
  status_desFixed .cfg 40 (fun b => cfg40At b 0) b

/-- The value check of a status byte ends in OK up to 1 and in INV above (R63). -/
theorem status_statDecoded (wrap : Status → Nat → Result) (x : Byte) (consumed : Nat) :
    (responseOf wrap (statDecoded x consumed)).status = if x.toNat ≤ 1 then 0 else 2 := by
  by_cases h : x.toNat ≤ 1
  · obtain ⟨st, hst⟩ : ∃ st, statOfByte x = some st := by
      obtain h0 | h1 : x.toNat = 0 ∨ x.toNat = 1 := by omega
      · exact ⟨.start, by rw [statOfByte_eq, if_pos h0]⟩
      · exact ⟨.stop, by rw [statOfByte_eq, if_neg (by omega), if_pos h1]⟩
    rw [if_pos h, statDecoded, hst]
    rfl
  · rw [if_neg h, statDecoded_of_two_le (by omega)]
    rfl

/-- MSG_DES checks a status byte as STAT_DES does, behind a length test of its own (R126). -/
theorem status_statusDes (b : Buffer) :
    (responseOf .msg (statusDes b)).status = if b.length < 2 then 1 else if (byteAt b 1).toNat ≤ 1 then 0 else 2 := by
  by_cases h : b.length < 2
  · rw [statusDes, if_pos h, if_pos h]
    rfl
  · rw [statusDes, if_neg h, if_neg h, ← status_statDecoded .stat (byteAt b 1) 2, Config.msgStatusLen]
    cases statDecoded (byteAt b 1) 2 <;> rfl

/-- A `Data` decode ends in BTS when the header test or the payload test fails, and in OK otherwise (R125). -/
theorem status_dataDes (b : Buffer) :
    (responseOf .msg (dataDes b)).status =
      if b.length < 9 then 1 else if b.length - 9 < 18 * Spec.beValue (memRead b 1 8) then 1 else 0 := by
  rw [responseOf_dataDes, Nat.mul_comm 18]
  simp only [apply_ite Response.status, status_bufferTooShort, status_ok]

/-- A `Config` decode ends in OK or BTS, as its length test says (R127). -/
theorem status_configDes (b : Buffer) :
    (responseOf .msg (configDes b)).status = if b.length < 41 then 1 else 0 := by
  rw [responseOf_configDes]
  simp only [apply_ite Response.status, status_bufferTooShort, status_ok]

/-- STAT_DES tests the length, then the status byte (R105, R145). -/
theorem status_statDes (b : Buffer) :
    (responseOf .stat (statDes b)).status = if b.length = 0 then 1 else if (byteAt b 0).toNat ≤ 1 then 0 else 2 := by
  cases b with
  | nil => rfl
  | cons x rest =>
    have hne : (x :: rest).length ≠ 0 := Nat.succ_ne_zero rest.length
    rw [if_neg hne, statDes, status_statDecoded, byteAt_cons_zero]

/-- MSG_DES tests for the empty buffer, then the tag, then what the tag's variant asks for (R124, R145). -/
theorem status_msgDes (b : Buffer) :
    (responseOf .msg (msgDes b)).status =
      if b.length = 0 then 1
      else if (byteAt b 0).toNat = 0 then
        if b.length < 9 then 1 else if b.length - 9 < 18 * Spec.beValue (memRead b 1 8) then 1 else 0
      else if (byteAt b 0).toNat = 1 then
        if b.length < 2 then 1 else if (byteAt b 1).toNat ≤ 1 then 0 else 2
      else if (byteAt b 0).toNat = 2 then if b.length < 41 then 1 else 0
      else 2 := by
  cases b with
  | nil => rfl
  | cons tag rest =>
    have hne : (tag :: rest).length ≠ 0 := Nat.succ_ne_zero rest.length
    rw [if_neg hne, byteAt_cons_zero]
    obtain rfl | rfl | rfl | htag := tag_cases tag
    · exact status_dataDes (tagData :: rest)
    · exact status_statusDes (tagStatus :: rest)
    · exact status_configDes (tagConfig :: rest)
    · rw [msgDes_other htag, if_neg (by omega), if_neg (by omega), if_neg (by omega)]
      rfl

/-! ### The operations that are no deserializers -/

/-- UNPACK_PEAK ends in OK or FLT, as its length test says (R93, R94). -/
theorem endsIn_unpackPeak (input : Buffer) (s : State) :
    EndsIn (.unpackPeak input) s (if input.length = 12 then 0 else 3) := by
  by_cases h : input.length = 12
  · rw [if_pos h]
    exact endsIn_ok_of_complete (exec_unpackPeak_ok h s)
  · rw [if_neg h]
    exact ⟨_, _, exec_unpackPeak_fault h s, State.raise_response _ s, rfl⟩

/-- MSG_SER completes on every message within MAXPEAKS (R120, R121). -/
theorem exec_msgSer_of_presentable {m : Message} (h : m.presentable = true) (s : State) :
    exec (.msgSer m) s = .next (s.complete (.out (msgBytes m))) := by
  cases m with
  | data peaks => exact if_pos (of_decide_eq_true h)
  | status st => exact exec_msgSer_status st s
  | config c => exact exec_msgSer_config c s

/-- Settles O35: encoders, primitive decoders and serializers complete, and every other operation ends in the code its tests
decide. -/
theorem outcomeOfEveryOperation : Obligations.OutcomeOfEveryOperation := by
  refine ⟨fun v s => endsIn_ok_of_complete (exec_enc16 v s), fun v s => endsIn_ok_of_complete (exec_enc32 v s),
    fun v s => endsIn_ok_of_complete (exec_enc64 v s), fun b0 b1 s => endsIn_ok_of_complete (exec_dec16 b0 b1 s),
    fun b0 b1 b2 b3 s => endsIn_ok_of_complete (exec_dec32 b0 b1 b2 b3 s),
    fun b0 b1 b2 b3 b4 b5 b6 b7 s => endsIn_ok_of_complete (exec_dec64 b0 b1 b2 b3 b4 b5 b6 b7 s), endsIn_unpackPeak,
    fun p s => endsIn_ok_of_complete (exec_peakSer p s), fun c s => endsIn_ok_of_complete (exec_cfgSer c s),
    fun st s => endsIn_ok_of_complete (exec_statSer st s),
    fun m s hm => endsIn_ok_of_complete (exec_msgSer_of_presentable hm s),
    fun input s => endsIn_of_answer (exec_peakDes input s) (status_peakDes input),
    fun input s => endsIn_of_answer (exec_cfgDes input s) (status_cfgDes input),
    fun input s => endsIn_of_answer (exec_statDes input s) (status_statDes input),
    fun input s => endsIn_of_answer (exec_msgDes input s) (status_msgDes input)⟩

end Sys2Proof.Machine

/-!
PROOFS. Family other, part 1: what an instruction answers, as a value of its own (R7, R38). `answerOf` gives each instruction its
response or its refusal, and `exec_eq_outcomeOf` ties it to `exec`; every claim about all instructions is then a claim about
`answerOf`, and a claim about the state goes through `State.respond` alone.
-/

namespace Sys2Proof.Machine

/-! ### Giving a response -/

/-- The state after a response: completion or raising, whichever the response is (R12, R146). -/
def State.respond (r : Response) (s : State) : State :=
  match r with
  | .ok result => s.complete result
  | .raised x => s.raise x

@[simp] theorem State.respond_ok (result : Result) (s : State) : s.respond (.ok result) = s.complete result := rfl

@[simp] theorem State.respond_raised (x : Abnormal) (s : State) : s.respond (.raised x) = s.raise x := rfl

@[simp] theorem State.respond_pending (r : Response) (s : State) : (s.respond r).pending = s.pending := by
  cases r <;> rfl

@[simp] theorem State.respond_response (r : Response) (s : State) : (s.respond r).response = some r := by
  cases r <;> rfl

/-- A response other than `FLT` leaves the record of the run's fault alone (R150). -/
theorem State.respond_runFault_of_ne {r : Response} (h : r ≠ .raised .invalidInputLength) (s : State) :
    (s.respond r).runFault = s.runFault := by
  match r, h with
  | .ok _, _ => rfl
  | .raised (.bufferTooShort _), _ => rfl
  | .raised .invalidDiscriminant, _ => rfl
  | .raised .invalidInputLength, h => exact absurd rfl h

/-- The two fields a response writes; whatever response was held before does not matter. -/
theorem State.respond_eq (r : Response) (s : State) :
    s.respond r = { s with
      response := some r
      runFault := if r = .raised .invalidInputLength then some .invalidInputLength else s.runFault } := by
  by_cases h : r = .raised .invalidInputLength
  · subst h
    rfl
  · rw [if_neg h, ← State.respond_runFault_of_ne h s, ← State.respond_response r s, ← State.respond_pending r s]

/-- A deserializer answers with the response its decoder's outcome stands for. -/
theorem State.answer_eq_respond {α : Type} (wrap : α → Nat → Result) (d : Decoded α) (s : State) :
    s.answer wrap d = s.respond (responseOf wrap d) := by
  cases d <;> rfl

/-! ### The answer of an instruction -/

/-- What an instruction answers, in whatever state it runs: a response, or the reason it is refused. -/
def answerOf : Instr → Except Refusal Response
  | .enc16 v => .ok (.ok (.out (beEnc16 v)))
  | .enc32 v => .ok (.ok (.out (beEnc32 v)))
  | .enc64 v => .ok (.ok (.out (beEnc64 v)))
  | .dec16 b0 b1 => .ok (.ok (.val16 (beDec16 b0 b1)))
  | .dec32 b0 b1 b2 b3 => .ok (.ok (.val32 (beDec32 b0 b1 b2 b3)))
  | .dec64 b0 b1 b2 b3 b4 b5 b6 b7 => .ok (.ok (.val64 (beDec64 b0 b1 b2 b3 b4 b5 b6 b7)))
  | .unpackPeak input =>
    .ok (if input.length = Config.packedLen then .ok (.unpacked (packed12Peak input)) else .raised .invalidInputLength)
  | .peakSer p => .ok (.ok (.out (peak18Bytes p)))
  | .peakDes input => .ok (responseOf .peak (peakDes input))
  | .cfgSer c => .ok (.ok (.out (cfg40Bytes c)))
  | .cfgDes input => .ok (responseOf .cfg (cfgDes input))
  | .statSer st => .ok (.ok (.out [statByte st]))
  | .statDes input => .ok (responseOf .stat (statDes input))
  | .msgSer (.data peaks) =>
    if peaks.length ≤ Config.maxPeaks then .ok (.ok (.out (msgBytes (.data peaks)))) else .error (.dataTooLong peaks.length)
  | .msgSer (.status st) => .ok (.ok (.out (msgBytes (.status st))))
  | .msgSer (.config c) => .ok (.ok (.out (msgBytes (.config c))))
  | .msgDes input => .ok (responseOf .msg (msgDes input))
  | .opFRefused => .error .noOperation
  | .be16 v => .ok (.ok (.val16 v))
  | .be32 v => .ok (.ok (.val32 v))
  | .be64 v => .ok (.ok (.val64 v))
  | .packed12 t c sp h => .ok (.ok (.unpacked (packedRecord t c sp h)))
  | .peak18 p => .ok (.ok (.peak p Config.peakLen))
  | .cfg40 c => .ok (.ok (.cfg c Config.cfgLen))
  | .statStart => .ok (.ok (.stat .start Config.statLen))
  | .statStop => .ok (.ok (.stat .stop Config.statLen))
  | .statInvalid x => .ok (responseOf .stat (statDecoded x Config.statLen))
  | .msgData peaks =>
    if peaks.length < 2 ^ 64 then .ok (.ok (.msg (.data peaks) (msgLen (.data peaks)))) else .error (.dataTooLong peaks.length)
  | .msgStatus x => .ok (responseOf (fun st c => .msg (.status st) c) (statDecoded x Config.msgStatusLen))
  | .msgConfig c => .ok (.ok (.msg (.config c) (msgLen (.config c))))
  | .msgInvalidTag x => .ok (responseOf .msg (msgDes [x]))

/-- The outcome an answer is in a state. -/
def outcomeOf (a : Except Refusal Response) (s : State) : Host.Outcome State Fault Refusal :=
  match a with
  | .ok r => .next (s.respond r)
  | .error x => .refused x

@[simp] theorem outcomeOf_ok (r : Response) (s : State) : outcomeOf (.ok r) s = .next (s.respond r) := rfl

@[simp] theorem outcomeOf_error (x : Refusal) (s : State) : outcomeOf (.error x) s = .refused x := rfl

theorem outcomeOf_eq_next_iff {a : Except Refusal Response} {s t : State} :
    outcomeOf a s = .next t ↔ ∃ r, a = .ok r ∧ s.respond r = t := by
  cases a <;> simp

theorem outcomeOf_eq_refused_iff {a : Except Refusal Response} {s : State} {x : Refusal} :
    outcomeOf a s = .refused x ↔ a = .error x := by
  cases a <;> simp

theorem outcomeOf_ne_fault (a : Except Refusal Response) (s : State) (f : Fault) : outcomeOf a s ≠ .fault f := by
  cases a <;> simp

/-- `exec` reads nothing from the state: its outcome is the instruction's answer, given in that state (R7). -/
theorem exec_eq_outcomeOf (i : Instr) (s : State) : exec i s = outcomeOf (answerOf i) s := by
  have hanswer {α : Type} (wrap : α → Nat → Result) (d : Decoded α) :
      (.next (s.answer wrap d) : Host.Outcome State Fault Refusal) = outcomeOf (.ok (responseOf wrap d)) s := by
    rw [State.answer_eq_respond, outcomeOf_ok]
  cases i with
  | peakDes input => exact hanswer _ _
  | cfgDes input => exact hanswer _ _
  | statDes input => exact hanswer _ _
  | msgDes input => exact hanswer _ _
  | statInvalid x => exact hanswer _ _
  | msgStatus x => exact hanswer _ _
  | msgInvalidTag x => exact hanswer _ _
  | unpackPeak input =>
    by_cases h : input.length = Config.packedLen
    · rw [exec_unpackPeak_ok h, answerOf, if_pos h, outcomeOf_ok, State.respond_ok]
    · rw [exec_unpackPeak_fault h, answerOf, if_neg h, outcomeOf_ok, State.respond_raised]
  | msgSer m =>
    cases m with
    | data peaks =>
      change (if peaks.length ≤ Config.maxPeaks then _ else _) = outcomeOf (if peaks.length ≤ Config.maxPeaks then _ else _) s
      split <;> rfl
    | status st => rfl
    | config c => rfl
  | msgData peaks =>
    change (if peaks.length < 2 ^ 64 then _ else _) = outcomeOf (if peaks.length < 2 ^ 64 then _ else _) s
    split <;> rfl
  | _ => rfl

theorem answerOf_of_exec {i : Instr} {s t : State} {r : Response} (h : exec i s = .next t) (hr : t.response = some r) :
    answerOf i = .ok r := by
  rw [exec_eq_outcomeOf, outcomeOf_eq_next_iff] at h
  obtain ⟨r', hanswer, rfl⟩ := h
  rw [State.respond_response, Option.some.injEq] at hr
  rw [hanswer, hr]

/-- Settles O38: the answer depends on the instruction alone, and giving it writes the response and the model's record of a
`FLT` only. -/
theorem everyInstructionIsAPureFunction : Obligations.EveryInstructionIsAPureFunction := by
  intro i
  cases h : answerOf i with
  | error x => exact .inl ⟨x, fun s => by rw [exec_eq_outcomeOf, h, outcomeOf_error]⟩
  | ok r => exact .inr ⟨r, fun s => by rw [exec_eq_outcomeOf, h, outcomeOf_ok, State.respond_eq]⟩

/-- `FLT` is the answer of UNPACK_PEAK on a wrong length and of nothing else (R93, R143). -/
theorem answerOf_eq_fault_iff {i : Instr} :
    answerOf i = .ok (.raised .invalidInputLength) ↔ ∃ input, i = .unpackPeak input ∧ input.length ≠ 12 := by
  cases i with
  | unpackPeak input => by_cases h : input.length = 12 <;> simp [answerOf, h]
  | msgSer m => cases m <;> simp [answerOf, ite_eq_iff]
  | msgData peaks => simp [answerOf, ite_eq_iff]
  | peakDes input => simp [answerOf, responseOf_ne_invalidInputLength]
  | cfgDes input => simp [answerOf, responseOf_ne_invalidInputLength]
  | statDes input => simp [answerOf, responseOf_ne_invalidInputLength]
  | msgDes input => simp [answerOf, responseOf_ne_invalidInputLength]
  | statInvalid x => simp [answerOf, responseOf_ne_invalidInputLength]
  | msgStatus x => simp [answerOf, responseOf_ne_invalidInputLength]
  | msgInvalidTag x => simp [answerOf, responseOf_ne_invalidInputLength]
  | _ => simp [answerOf]

/-- Every well-formed instruction but the op value 0xF has a response (R172). -/
theorem answerOf_of_wellFormed {i : Instr} (hwf : i.wellFormed = true) (hop : i ≠ .opFRefused) : ∃ r, answerOf i = .ok r := by
  cases i with
  | opFRefused => exact absurd rfl hop
  | msgSer m =>
    cases m with
    | data peaks => exact ⟨_, if_pos (of_decide_eq_true hwf)⟩
    | status st => exact ⟨_, rfl⟩
    | config c => exact ⟨_, rfl⟩
  | msgData peaks => exact ⟨_, if_pos (of_decide_eq_true hwf)⟩
  | _ => exact ⟨_, rfl⟩

end Sys2Proof.Machine

/-!
PROOFS. Family other, part 2: the length tests of the deserializers (R106, R124 to R127, R141). How many bytes the test a buffer
stands before asks for is a function of the buffer; the deficit is always the distance to it. Truncation, retry, the exactness of
every deficit and its bounds follow from that.
-/

namespace Sys2Proof.Machine

/-! ### The bytes a deserializer asks for -/

/-- A decoder runs short exactly on the buffers below the length `required` gives, and by the distance to it (R110, R141). -/
def ShortBelow {α : Type} (d : Buffer → Decoded α) (required : Buffer → Nat) : Prop :=
  ∀ (b : Buffer) (n : Nat), d b = .raised (.bufferTooShort n) ↔ b.length < required b ∧ n = required b - b.length

theorem desFixed_shortBelow {α : Type} (n : Nat) (record : Buffer → α) : ShortBelow (desFixed n record) fun _ => n := by
  intro b k
  by_cases h : b.length < n
  · simp [desFixed, h, eq_comm]
  · simp [desFixed, h]

theorem statDecoded_ne_bufferTooShort (x : Byte) (c n : Nat) : statDecoded x c ≠ .raised (.bufferTooShort n) := by
  cases h : statOfByte x <;> simp [statDecoded, h]

theorem statDes_shortBelow : ShortBelow statDes fun _ => 1 := by
  intro b n
  cases b with
  | nil => simp [statDes, eq_comm]
  | cons x rest => simp [statDes, statDecoded_ne_bufferTooShort]

theorem statusDes_shortBelow : ShortBelow statusDes fun _ => 2 := by
  intro b n
  by_cases h : b.length < 2
  · simp [statusDes, Config.msgStatusLen, h, eq_comm]
  · rw [statusDes, Config.msgStatusLen, if_neg h]
    cases hd : statDecoded (byteAt b 1) 2 with
    | ok st c => simp [h]
    | raised e =>
      have hne : e ≠ .bufferTooShort n := fun he => statDecoded_ne_bufferTooShort _ 2 n (he ▸ hd)
      simp [h, hne]

/-- The bytes a `Data` buffer needs: the header while it is not whole, then the header and the payload its count announces
(R125, R133). -/
def dataRequired (b : Buffer) : Nat := if b.length < 9 then 9 else 9 + 18 * (be64At b 1).toNat

theorem dataDes_shortBelow : ShortBelow dataDes dataRequired := by
  intro b n
  by_cases hheader : b.length < 9
  · simp [dataDes, dataRequired, Config.dataHdrLen, hheader, eq_comm]
  · simp only [dataDes, dataRequired, Config.dataHdrLen, Config.peakLen, if_neg hheader]
    generalize (be64At b 1).toNat = count
    by_cases hpayload : b.length - 9 < count * 18
    · rw [if_pos hpayload, Decoded.raised.injEq, DeserializeError.bufferTooShort.injEq]
      omega
    · rw [if_neg hpayload]
      simp only [reduceCtorEq, false_iff]
      omega

/-- The bytes a buffer needs for MSG_DES to pass the length test it stands before; none where the tag is of no variant. -/
def msgRequired (b : Buffer) : Nat :=
  match b with
  | [] => 1
  | tag :: _ =>
    if tag = tagData then dataRequired b else if tag = tagStatus then 2 else if tag = tagConfig then 41 else 0

@[simp] theorem msgRequired_nil : msgRequired [] = 1 := rfl

theorem msgRequired_data (rest : Buffer) : msgRequired (tagData :: rest) = dataRequired (tagData :: rest) := rfl

@[simp] theorem msgRequired_status (rest : Buffer) : msgRequired (tagStatus :: rest) = 2 := rfl

@[simp] theorem msgRequired_config (rest : Buffer) : msgRequired (tagConfig :: rest) = 41 := rfl

theorem msgRequired_other {x : Byte} (h : 3 ≤ x.toNat) (rest : Buffer) : msgRequired (x :: rest) = 0 := by
  obtain ⟨h0, h1, h2⟩ := tag_ne_of_three_le h
  rw [msgRequired, if_neg h0, if_neg h1, if_neg h2]

/-- MSG_DES runs short on the empty buffer by 1, and behind a tag as the tag's variant does (R124). -/
theorem msgDes_shortBelow : ShortBelow msgDes msgRequired := by
  intro b n
  cases b with
  | nil => simp [msgDes, eq_comm]
  | cons tag rest =>
    obtain rfl | rfl | rfl | htag := tag_cases tag
    · rw [msgDes_data, msgRequired_data]
      exact dataDes_shortBelow _ n
    · rw [msgDes_status, msgRequired_status]
      exact statusDes_shortBelow _ n
    · rw [msgDes_config, msgRequired_config]
      exact desFixed_shortBelow 41 _ _ n
    · simp [msgDes_other htag, msgRequired_other htag]

theorem peakDes_shortBelow : ShortBelow peakDes fun _ => 18 := desFixed_shortBelow 18 _

theorem cfgDes_shortBelow : ShortBelow cfgDes fun _ => 40 := desFixed_shortBelow 40 _

/-- No count makes a deficit larger than `18 * (2^64 - 1)` (R66, R141). -/
theorem deficit_le_maxMissing (b : Buffer) : msgRequired b - b.length ≤ maxMissing := by
  have hmax : maxMissing = 18 * (2 ^ 64 - 1) := rfl
  cases b with
  | nil => rw [msgRequired_nil, hmax]; omega
  | cons tag rest =>
    obtain rfl | rfl | rfl | htag := tag_cases tag
    · have hcount := (be64At (tagData :: rest) 1).isLt
      rw [msgRequired_data, dataRequired, hmax]
      split <;> omega
    · rw [msgRequired_status, hmax]; omega
    · rw [msgRequired_config, hmax]; omega
    · rw [msgRequired_other htag]; omega

/-! ### Truncated messages and large counts -/

/-- A presentable message's peaks can be counted in 8 bytes (R57, R121). -/
theorem length_lt_of_presentable {ps : List MeasuredPeak} (h : (Message.data ps).presentable = true) : ps.length < 2 ^ 64 := by
  simp only [Message.presentable, Config.maxPeaks, decide_eq_true_eq] at h
  omega

/-- The model's encoding of a presentable message is the one of the tables of R57 to R59. -/
theorem msgBytes_eq_messageBytes {m : Message} (h : m.presentable = true) : msgBytes m = Spec.messageBytes m := by
  cases m with
  | data ps =>
    have hpeaks : peak18Bytes = Spec.peakBytes := funext peak18Bytes_eq_peakBytes
    rw [msgBytes, beEnc64_eq_beBytes, BitVec.toNat_ofNat, Nat.mod_eq_of_lt (length_lt_of_presentable h), hpeaks,
      Spec.messageBytes, tagData]
  | status st => cases st <;> rfl
  | config c => rw [msgBytes, cfg40Bytes_eq_cfgBytes, Spec.messageBytes, tagConfig]

/-- Behind the header the count is what was written there, whatever the payload (R57, R135). -/
theorem msgRequired_header {n : Nat} (hn : n < 2 ^ 64) (payload : Buffer) :
    msgRequired (tagData :: (beEnc64 (BitVec.ofNat 64 n) ++ payload)) = 9 + 18 * n := by
  have hcount : be64At (tagData :: (beEnc64 (BitVec.ofNat 64 n) ++ payload)) 1 = BitVec.ofNat 64 n :=
    (be64At_append [tagData] _ 0).trans (be64At_beEnc64 _ payload)
  have hlen : ¬ (tagData :: (beEnc64 (BitVec.ofNat 64 n) ++ payload)).length < 9 := by simp
  rw [msgRequired_data, dataRequired, if_neg hlen, hcount, BitVec.toNat_ofNat, Nat.mod_eq_of_lt hn]

theorem exec_msgDes_short {b : Buffer} (h : b.length < msgRequired b) (s : State) :
    exec (.msgDes b) s = .next { s with response := some (.raised (.bufferTooShort (msgRequired b - b.length))) } := by
  rw [exec_msgDes_eq, (msgDes_shortBelow b _).mpr ⟨h, rfl⟩]
  rfl

/-- Settles O30: the count announces the payload exactly, so the deficit is the difference of two numbers. -/
theorem largeCountsNeverWrap : Obligations.LargeCountsNeverWrap := by
  intro n payload s hn hpayload
  have hbytes : Spec.beBytes 8 n = beEnc64 (BitVec.ofNat 64 n) := by
    rw [beEnc64_eq_beBytes, BitVec.toNat_ofNat, Nat.mod_eq_of_lt hn]
  have hrequired := msgRequired_header hn payload
  have hlen : (tagData :: (beEnc64 (BitVec.ofNat 64 n) ++ payload)).length = 9 + payload.length := by simp; omega
  have hshort := exec_msgDes_short (b := tagData :: (beEnc64 (BitVec.ofNat 64 n) ++ payload)) (by omega) s
  rw [hrequired, hlen, Nat.add_sub_add_left] at hshort
  rw [hbytes]
  exact hshort

/-- The staged deficit of R133 is the distance to what the truncated message's own bytes ask for. -/
theorem msgRequired_take_msgBytes {m : Message} (hm : m.presentable = true) {n : Nat} (hn : n < (msgBytes m).length) :
    n < msgRequired ((msgBytes m).take n) ∧ Spec.stagedDeficit m n = msgRequired ((msgBytes m).take n) - n := by
  rw [length_msgBytes] at hn
  cases n with
  | zero => exact ⟨Nat.zero_lt_one, rfl⟩
  | succ n =>
    cases m with
    | status st =>
      obtain rfl : n = 0 := by simp only [msgLen, Config.msgStatusLen] at hn; omega
      exact ⟨Nat.one_lt_two, rfl⟩
    | config c => exact ⟨hn, rfl⟩
    | data ps =>
      by_cases hheader : n + 1 < 9
      · have hlen : ((msgBytes (.data ps)).take (n + 1)).length < 9 := by rw [List.length_take]; omega
        have hrequired : msgRequired ((msgBytes (.data ps)).take (n + 1)) = 9 := if_pos hlen
        rw [hrequired]
        exact ⟨hheader, if_pos hheader⟩
      · obtain ⟨k, rfl⟩ : ∃ k, n = 8 + k := ⟨n - 8, by omega⟩
        have htake : (msgBytes (.data ps)).take (8 + k + 1) =
            tagData :: (beEnc64 (BitVec.ofNat 64 ps.length) ++ (ps.flatMap peak18Bytes).take k) := by
          rw [msgBytes, List.take_succ_cons, List.take_append, length_beEnc64, Nat.add_sub_cancel_left,
            List.take_of_length_le (by simp)]
        rw [htake, msgRequired_header (length_lt_of_presentable hm)]
        simp only [msgLen, Config.dataHdrLen, Config.peakLen] at hn
        exact ⟨hn, if_neg hheader⟩

/-- Settles O28: each length test of the decode sees the truncated message short by the staged count. -/
theorem messageTruncationIsStaged : Obligations.MessageTruncationIsStaged := by
  intro m n s hm hn
  rw [← msgBytes_eq_messageBytes hm] at hn ⊢
  obtain ⟨hshort, hdeficit⟩ := msgRequired_take_msgBytes hm hn
  have hlen : ((msgBytes m).take n).length = n := by rw [List.length_take]; omega
  rw [exec_msgDes_short (by rwa [hlen]), hlen, hdeficit]
  exact ⟨rfl, by omega⟩

/-! ### Retrying -/

/-- A field inside the buffer stands there with bytes appended too (R37). -/
theorem be64At_append_left {b : Buffer} {i : Nat} (extra : Buffer) (h : i + 8 ≤ b.length) :
    be64At (b ++ extra) i = be64At b i := by
  have htake := be64At_take (b := b ++ extra) h
  rw [List.take_left] at htake
  exact htake.symm

/-- More bytes behind the same ones ask for the same length, unless the tag or the count only comes with them (R133, R148). -/
theorem msgRequired_append {b : Buffer} (extra : Buffer)
    (h : (b ≠ [] ∧ (b ++ extra).length < 9) ∨ 9 ≤ b.length ∨ ∃ x rest, b = x :: rest ∧ x ≠ tagData) :
    msgRequired (b ++ extra) = msgRequired b := by
  cases b with
  | nil => simp at h
  | cons tag rest =>
    obtain rfl | rfl | rfl | htag := tag_cases tag
    · rw [List.cons_append, msgRequired_data, msgRequired_data, ← List.cons_append, dataRequired, dataRequired]
      obtain ⟨-, hshort⟩ | hlong | ⟨x, rest', heq, hx⟩ := h
      · have hlen : (tagData :: rest).length < 9 := by rw [List.length_append] at hshort; omega
        rw [if_pos hshort, if_pos hlen]
      · rw [if_neg (by rw [List.length_append]; omega), if_neg (by omega), be64At_append_left extra (by omega)]
      · exact absurd (List.cons.inj heq).1.symm hx
    · rw [List.cons_append, msgRequired_status, msgRequired_status]
    · rw [List.cons_append, msgRequired_config, msgRequired_config]
    · rw [List.cons_append, msgRequired_other htag, msgRequired_other htag]

/-- A retry that still falls short of what the first attempt asked for. -/
theorem msgRequired_append_of_short {b extra : Buffer} (h : (b ++ extra).length < msgRequired b) :
    msgRequired (b ++ extra) = msgRequired b := by
  cases b with
  | nil =>
    obtain rfl : extra = [] := List.length_eq_zero_iff.mp (Nat.lt_one_iff.mp h)
    rfl
  | cons tag rest =>
    apply msgRequired_append
    by_cases htag : tag = tagData
    · by_cases hheader : (tag :: rest).length < 9
      · have hrequired : msgRequired (tag :: rest) = 9 := by rw [htag, msgRequired_data, dataRequired, ← htag, if_pos hheader]
        exact .inl ⟨List.cons_ne_nil _ _, by omega⟩
      · exact .inr (.inl (Nat.le_of_not_lt hheader))
    · exact .inr (.inr ⟨tag, rest, rfl, htag⟩)

/-- R148 for an operation: with fewer bytes than it asked for it asks for the rest, with enough it does not run short, wherever
`staged` does not say that the length asked for was a first stage only. -/
def RetryLaw (op : Buffer → Instr) (staged : Buffer → Prop) : Prop :=
  ∀ (b extra : Buffer) (s t : State) (n : Nat), exec (op b) s = .next t → t.response = some (.raised (.bufferTooShort n)) →
    (extra.length < n → ∃ u, exec (op (b ++ extra)) s = .next u ∧
      u.response = some (.raised (.bufferTooShort (n - extra.length)))) ∧
    (n ≤ extra.length → ¬ staged b → ∃ u, exec (op (b ++ extra)) s = .next u ∧
      ∀ k, u.response ≠ some (.raised (.bufferTooShort k)))

theorem responseOf_eq_bufferTooShort_iff {α : Type} {wrap : α → Nat → Result} {d : Decoded α} {n : Nat} :
    responseOf wrap d = .raised (.bufferTooShort n) ↔ d = .raised (.bufferTooShort n) := by
  cases d with
  | ok v c => simp [responseOf]
  | raised e => cases e <;> simp [responseOf, abnormalOf]

/-- An operation obeys R148 when its decoder asks for the same length again: on a retry that is still too short, and, unless
staged, on any retry. -/
theorem retryLaw_of_shortBelow {α : Type} {op : Buffer → Instr} {wrap : α → Nat → Result} {d : Buffer → Decoded α}
    {required : Buffer → Nat} {staged : Buffer → Prop}
    (hexec : ∀ input s, exec (op input) s = .next (s.answer wrap (d input))) (hd : ShortBelow d required)
    (hagain : ∀ b extra, (b ++ extra).length < required b → required (b ++ extra) = required b)
    (hsame : ∀ b extra, ¬ staged b → required (b ++ extra) = required b) : RetryLaw op staged := by
  intro b extra s t n ht hresponse
  rw [hexec, State.answer_eq_respond, Host.Outcome.next.injEq] at ht
  rw [← ht, State.respond_response, Option.some.injEq, responseOf_eq_bufferTooShort_iff, hd] at hresponse
  obtain ⟨hshort, rfl⟩ := hresponse
  have hlen : (b ++ extra).length = b.length + extra.length := List.length_append
  refine ⟨fun hfewer => ⟨_, hexec _ s, ?_⟩, fun henough hstaged => ⟨_, hexec _ s, fun k => ?_⟩⟩
  · have hstill : (b ++ extra).length < required b := by omega
    rw [State.answer_eq_respond, State.respond_response, Option.some.injEq, responseOf_eq_bufferTooShort_iff, hd,
      hagain b extra hstill]
    omega
  · rw [State.answer_eq_respond, State.respond_response, Ne, Option.some.injEq, responseOf_eq_bufferTooShort_iff, hd,
      hsame b extra hstaged]
    omega

/-- The two buffers on which MSG_DES asks for a first stage only: the empty one and an incomplete `Data` header (R133). -/
def MsgStaged (b : Buffer) : Prop := ¬ (9 ≤ b.length ∨ ∃ x rest, b = x :: rest ∧ x ≠ tagData)

theorem peakDes_retryLaw : RetryLaw .peakDes fun _ => False :=
  retryLaw_of_shortBelow exec_peakDes peakDes_shortBelow (fun _ _ _ => rfl) (fun _ _ _ => rfl)

theorem cfgDes_retryLaw : RetryLaw .cfgDes fun _ => False :=
  retryLaw_of_shortBelow exec_cfgDes cfgDes_shortBelow (fun _ _ _ => rfl) (fun _ _ _ => rfl)

theorem statDes_retryLaw : RetryLaw .statDes fun _ => False :=
  retryLaw_of_shortBelow exec_statDes statDes_shortBelow (fun _ _ _ => rfl) (fun _ _ _ => rfl)

theorem msgDes_retryLaw : RetryLaw .msgDes MsgStaged :=
  retryLaw_of_shortBelow exec_msgDes msgDes_shortBelow (fun _ _ h => msgRequired_append_of_short h)
    (fun _ extra h => msgRequired_append extra (.inr (not_not.mp h)))

theorem RetryLaw.mono {op : Buffer → Instr} {staged staged' : Buffer → Prop} (h : RetryLaw op staged)
    (hle : ∀ b, staged b → staged' b) : RetryLaw op staged' := fun b extra s t n ht hresponse =>
  ⟨(h b extra s t n ht hresponse).1, fun henough hstaged => (h b extra s t n ht hresponse).2 henough (hstaged ∘ hle b)⟩

/-- Settles O33: each operation asks for the same length again, MSG_DES past its two stages. -/
theorem retryFromTheSameOffset : Obligations.RetryFromTheSameOffset := by
  have hlaw : ∀ op ∈ [Instr.peakDes, Instr.cfgDes, Instr.statDes, Instr.msgDes],
      RetryLaw op fun b => op b = .msgDes b ∧ MsgStaged b := by
    intro op hop
    simp only [List.mem_cons, List.not_mem_nil, or_false] at hop
    obtain rfl | rfl | rfl | rfl := hop
    · exact peakDes_retryLaw.mono fun _ => False.elim
    · exact cfgDes_retryLaw.mono fun _ => False.elim
    · exact statDes_retryLaw.mono fun _ => False.elim
    · exact msgDes_retryLaw.mono fun b hb => ⟨rfl, hb⟩
  refine ⟨fun op hop b extra s t n ht hresponse hfewer => ?_, fun op hop b extra s t n ht hresponse henough hplace => ?_⟩
  · exact (hlaw op hop b extra s t n ht hresponse).1 hfewer
  · exact (hlaw op hop b extra s t n ht hresponse).2 henough fun ⟨hop, hstaged⟩ => hstaged (hplace hop)

end Sys2Proof.Machine

/-!
PROOFS. Family other, part 3: the packed record as four fields of one 96-bit word (R52, R92, R96). A record and its 12 bytes
determine each other through that word; UNPACK_PEAK zero-extends its four fields, so it is injective and reaches every record
within their ranges.
-/

namespace Sys2Proof.Machine

/-! ### The word and its bytes -/

/-- The bytes of a packed record are below 256, in the form `omega` uses. -/
theorem bytes_lt (b : Buffer) :
    (byteAt b 0).toNat < 256 ∧ (byteAt b 1).toNat < 256 ∧ (byteAt b 2).toNat < 256 ∧ (byteAt b 3).toNat < 256 ∧
    (byteAt b 4).toNat < 256 ∧ (byteAt b 5).toNat < 256 ∧ (byteAt b 6).toNat < 256 ∧ (byteAt b 7).toNat < 256 ∧
    (byteAt b 8).toNat < 256 ∧ (byteAt b 9).toNat < 256 ∧ (byteAt b 10).toNat < 256 ∧ (byteAt b 11).toNat < 256 := by
  have h (i : Nat) : (byteAt b i).toNat < 256 := (byteAt b i).isLt
  exact ⟨h 0, h 1, h 2, h 3, h 4, h 5, h 6, h 7, h 8, h 9, h 10, h 11⟩

/-- Each of the 12 bytes is cut out of the word at its own bit offset (R52). -/
theorem byteAt_eq_packedWord (b : Buffer) {i : Nat} (h : i < 12) :
    (byteAt b i).toNat = (packedWord b).toNat / 2 ^ (8 * i) % 256 := by
  have hb := bytes_lt b
  rw [toNat_packedWord]
  interval_cases i <;> omega

/-- A packed record is its word. -/
theorem eq_of_packedWord_eq {a b : Buffer} (ha : a.length = 12) (hb : b.length = 12)
    (h : (packedWord a).toNat = (packedWord b).toNat) : a = b := by
  apply List.ext_getElem (ha.trans hb.symm)
  intro i hia hib
  have hbyte : byteAt a i = byteAt b i := by
    apply BitVec.eq_of_toNat_eq
    rw [byteAt_eq_packedWord a (by omega), byteAt_eq_packedWord b (by omega), h]
  rwa [byteAt, byteAt, List.getD_eq_getElem _ _ hia, List.getD_eq_getElem _ _ hib] at hbyte

/-- The four fields read from 12 bytes are written back as those bytes: the word has no other bit (R52, R92). -/
theorem packed12Bytes_packedRead {b : Buffer} (h : b.length = 12) :
    packed12Bytes (packedRead b 0 40) (packedRead b 40 18) (packedRead b 58 10) (packedRead b 68 28) = b := by
  apply eq_of_packedWord_eq (length_packed12Bytes _ _ _ _) h
  have hword := (packedWord b).isLt
  simp only [toNat_packedWord_packed12Bytes, toNat_packedRead]
  omega

section
variable (t : BitVec 40) (c : BitVec 18) (s : BitVec 10) (h : BitVec 28)

/-! The four fields written are the four fields read (R92). -/

theorem packedRead_timestamp_packed12Bytes : packedRead (packed12Bytes t c s h) 0 40 = t := by
  have ht := t.isLt
  apply BitVec.eq_of_toNat_eq
  rw [toNat_packedRead, toNat_packedWord_packed12Bytes]
  omega

theorem packedRead_cycle_packed12Bytes : packedRead (packed12Bytes t c s h) 40 18 = c := by
  have ht := t.isLt
  have hc := c.isLt
  apply BitVec.eq_of_toNat_eq
  rw [toNat_packedRead, toNat_packedWord_packed12Bytes]
  omega

theorem packedRead_speed_packed12Bytes : packedRead (packed12Bytes t c s h) 58 10 = s := by
  have ht := t.isLt
  have hc := c.isLt
  have hs := s.isLt
  apply BitVec.eq_of_toNat_eq
  rw [toNat_packedRead, toNat_packedWord_packed12Bytes]
  omega

theorem packedRead_peakHeight_packed12Bytes : packedRead (packed12Bytes t c s h) 68 28 = h := by
  have ht := t.isLt
  have hc := c.isLt
  have hs := s.isLt
  have hh := h.isLt
  apply BitVec.eq_of_toNat_eq
  rw [toNat_packedRead, toNat_packedWord_packed12Bytes]
  omega

end

/-! ### UNPACK_PEAK in the word view -/

theorem toNat_setWidth_of_le {m n : Nat} (x : BitVec m) (h : m ≤ n) : (x.setWidth n).toNat = x.toNat := by
  rw [BitVec.toNat_setWidth, Nat.mod_eq_of_lt (Nat.lt_of_lt_of_le x.isLt (Nat.pow_le_pow_right Nat.two_pos h))]

/-- The expressions of R91 are the four fields of the word, zero-extended (R96). -/
theorem packed12Peak_eq_packedRecord (b : Buffer) :
    packed12Peak b =
      packedRecord (packedRead b 0 40) (packedRead b 40 18) (packedRead b 58 10) (packedRead b 68 28) := by
  have hb := bytes_lt b
  rw [packedRecord, MeasuredPeak.mk.injEq]
  refine ⟨?_, ?_, ?_, ?_⟩ <;> apply BitVec.eq_of_toNat_eq <;>
    rw [toNat_setWidth_of_le _ (by decide), toNat_packedRead, toNat_packedWord]
  · rw [toNat_packed_timestamp]; omega
  · rw [toNat_packed_peakHeight]; omega
  · rw [toNat_packed_speed]; omega
  · rw [toNat_packed_cycle]; omega

/-- Zero-extension loses nothing: the record determines the four fields. -/
theorem packedRecord_inj {t t' : BitVec 40} {c c' : BitVec 18} {s s' : BitVec 10} {h h' : BitVec 28}
    (heq : packedRecord t c s h = packedRecord t' c' s' h') : t = t' ∧ c = c' ∧ s = s' ∧ h = h' := by
  have hext {m n : Nat} (hmn : m ≤ n) {x y : BitVec m} (hxy : x.setWidth n = y.setWidth n) : x = y := by
    apply BitVec.eq_of_toNat_eq
    rw [← toNat_setWidth_of_le x hmn, hxy, toNat_setWidth_of_le y hmn]
  simp only [packedRecord, MeasuredPeak.mk.injEq] at heq
  obtain ⟨ht, hh, hs, hc⟩ := heq
  exact ⟨hext (by decide) ht, hext (by decide) hc, hext (by decide) hs, hext (by decide) hh⟩

theorem packed12Peak_inj {a b : Buffer} (ha : a.length = 12) (hb : b.length = 12) (h : packed12Peak a = packed12Peak b) :
    a = b := by
  rw [packed12Peak_eq_packedRecord, packed12Peak_eq_packedRecord] at h
  obtain ⟨ht, hc, hs, hh⟩ := packedRecord_inj h
  rw [← packed12Bytes_packedRead ha, ht, hc, hs, hh, packed12Bytes_packedRead hb]

theorem packed12Peak_packed12Bytes (t : BitVec 40) (c : BitVec 18) (s : BitVec 10) (h : BitVec 28) :
    packed12Peak (packed12Bytes t c s h) = packedRecord t c s h := by
  rw [packed12Peak_eq_packedRecord, packedRead_timestamp_packed12Bytes, packedRead_cycle_packed12Bytes,
    packedRead_speed_packed12Bytes, packedRead_peakHeight_packed12Bytes]

/-- A record whose fields lie within the sensor-native ranges (R92). -/
def InPackedRange (p : MeasuredPeak) : Prop :=
  p.timestamp.toNat < 2 ^ 40 ∧ p.cycle.toNat < 2 ^ 18 ∧ p.speed.toNat < 2 ^ 10 ∧ p.peakHeight.toNat < 2 ^ 28

theorem packedRecord_inRange (t : BitVec 40) (c : BitVec 18) (s : BitVec 10) (h : BitVec 28) :
    InPackedRange (packedRecord t c s h) := by
  refine ⟨?_, ?_, ?_, ?_⟩ <;> rw [packedRecord, toNat_setWidth_of_le _ (by decide)]
  · exact t.isLt
  · exact c.isLt
  · exact s.isLt
  · exact h.isLt

theorem packed12Peak_inRange (b : Buffer) : InPackedRange (packed12Peak b) := by
  rw [packed12Peak_eq_packedRecord]
  exact packedRecord_inRange _ _ _ _

/-- A record within the ranges is the zero-extension of its own low bits. -/
theorem packedRecord_setWidth {p : MeasuredPeak} (hp : InPackedRange p) :
    packedRecord (p.timestamp.setWidth 40) (p.cycle.setWidth 18) (p.speed.setWidth 10) (p.peakHeight.setWidth 28) = p := by
  have hlow {m n : Nat} {x : BitVec n} (hx : x.toNat < 2 ^ m) (hmn : m ≤ n) : (x.setWidth m).setWidth n = x := by
    apply BitVec.eq_of_toNat_eq
    rw [toNat_setWidth_of_le _ hmn, BitVec.toNat_setWidth, Nat.mod_eq_of_lt hx]
  obtain ⟨ht, hc, hs, hh⟩ := hp
  rw [packedRecord, hlow ht (by decide), hlow hc (by decide), hlow hs (by decide), hlow hh (by decide)]

/-- Settles O8: the record is the word's four fields zero-extended, so it has their ranges and determines the word, and any
record within the ranges is read from the bytes its low bits are written to. -/
theorem unpackPeakIsABijectionOntoItsRanges : Obligations.UnpackPeakIsABijectionOntoItsRanges := by
  refine ⟨fun input s hlen => ⟨_, exec_unpackPeak_ok hlen s, packed12Peak_inRange input⟩, fun a b s ha hb h => ?_,
    fun p s ht hc hs hh => ⟨packed12Bytes (p.timestamp.setWidth 40) (p.cycle.setWidth 18) (p.speed.setWidth 10)
      (p.peakHeight.setWidth 28), length_packed12Bytes _ _ _ _, ?_⟩⟩
  · rw [exec_unpackPeak_ok ha, exec_unpackPeak_ok hb, Host.Outcome.next.injEq] at h
    have hresponse := congrArg State.response h
    simp only [State.complete_response, Option.some.injEq, Response.ok.injEq, Result.unpacked.injEq] at hresponse
    exact packed12Peak_inj ha hb hresponse
  · rw [exec_unpackPeak_ok (length_packed12Bytes _ _ _ _), packed12Peak_packed12Bytes,
      packedRecord_setWidth ⟨ht, hc, hs, hh⟩, State.complete_eq]

/-! ### The layout table -/

/-- A row's bits as a quotient and a remainder, weighted by where they land (R61). -/
def packedTerm (b : Buffer) (p : PackedPiece) : Nat :=
  2 ^ p.landsAt * ((byteAt b p.byte).toNat / 2 ^ p.firstBit % 2 ^ p.width)

theorem packedPieceValue_eq (b : Buffer) (p : PackedPiece) : packedPieceValue b p = packedTerm b p := by
  rw [packedPieceValue, packedTerm, Nat.and_two_pow_sub_one_eq_mod, Nat.shiftRight_eq_div_pow, Nat.shiftLeft_eq, Nat.mul_comm]

/-- Do the rows land from bit `k` on, each above the one before it? -/
def landFrom : Nat → List PackedPiece → Bool
  | _, [] => true
  | k, p :: rows => decide (k ≤ p.landsAt) && landFrom (p.landsAt + p.width) rows

/-- Pieces that land one above the other are added by ORing them (R61). -/
theorem foldl_or_eq_sum (b : Buffer) {rows : List PackedPiece} {v k : Nat} (hv : v < 2 ^ k) (hrows : landFrom k rows = true) :
    rows.foldl (fun v p => v ||| packedPieceValue b p) v = v + (rows.map (packedTerm b)).sum := by
  induction rows generalizing v k with
  | nil => rfl
  | cons p rows ih =>
    simp only [landFrom, Bool.and_eq_true, decide_eq_true_eq] at hrows
    obtain ⟨hk, hrest⟩ := hrows
    have hbits : (byteAt b p.byte).toNat / 2 ^ p.firstBit % 2 ^ p.width < 2 ^ p.width := Nat.mod_lt _ (Nat.two_pow_pos _)
    have hbelow : v < 2 ^ p.landsAt := Nat.lt_of_lt_of_le hv (Nat.pow_le_pow_right Nat.two_pos hk)
    have hor : v ||| packedPieceValue b p = v + packedTerm b p := by
      rw [packedPieceValue_eq, Nat.or_comm, packedTerm, Nat.mul_comm, mul_two_pow_or _ hbelow, Nat.add_comm]
    have hnext : v + packedTerm b p < 2 ^ (p.landsAt + p.width) := by
      calc v + packedTerm b p < 2 ^ p.landsAt + packedTerm b p := Nat.add_lt_add_right hbelow _
        _ = 2 ^ p.landsAt * ((byteAt b p.byte).toNat / 2 ^ p.firstBit % 2 ^ p.width + 1) := by rw [packedTerm]; ring
        _ ≤ 2 ^ p.landsAt * 2 ^ p.width := Nat.mul_le_mul_left _ hbits
        _ = 2 ^ (p.landsAt + p.width) := (Nat.pow_add _ _ _).symm
    rw [List.foldl_cons, hor, ih hnext hrest, List.map_cons, List.sum_cons, Nat.add_assoc]

/-- Each field's rows stand in the table in the order in which they land. -/
theorem packedAssemble_eq_sum (b : Buffer) (f : PackedField) :
    packedAssemble b f = ((packedLayout.filter (fun p => p.field = f)).map (packedTerm b)).sum := by
  have hrows : landFrom 0 (packedLayout.filter (fun p => p.field = f)) = true := by cases f <;> decide
  rw [packedAssemble, foldl_or_eq_sum b Nat.one_pos hrows, Nat.zero_add]

/-- A field of the record as a number. -/
def fieldNumber (p : MeasuredPeak) : PackedField → Nat
  | .timestamp => p.timestamp.toNat
  | .cycle => p.cycle.toNat
  | .speed => p.speed.toNat
  | .peakHeight => p.peakHeight.toNat

/-- What the table assembles is what the expressions of R91 give. -/
theorem packedAssemble_eq_fieldNumber (b : Buffer) (f : PackedField) : packedAssemble b f = fieldNumber (packed12Peak b) f := by
  have hb := bytes_lt b
  rw [packedAssemble_eq_sum]
  cases f <;>
    simp only [packedLayout, List.filter_cons, List.filter_nil, reduceCtorEq, decide_true, decide_false, Bool.false_eq_true,
      if_true, if_false, List.map_cons, List.map_nil, List.sum_cons, List.sum_nil, packedTerm, fieldNumber,
      toNat_packed_timestamp, toNat_packed_cycle, toNat_packed_speed, toNat_packed_peakHeight] <;>
    omega

/-- Settles O9: the table's pieces and the word's four fields are both the record of R91. -/
theorem unpackPeakAgreesWithTableAndWordView : Obligations.UnpackPeakAgreesWithTableAndWordView := by
  intro input s hlen
  constructor
  · rw [exec_unpackPeak_ok hlen, State.complete_eq]
    simp only [packedAssemble_eq_fieldNumber, fieldNumber, BitVec.ofNat_toNat, BitVec.setWidth_eq]
  · rw [exec_unpackPeak_ok hlen, State.complete_eq, packed12Peak_eq_packedRecord, packedRecord]

end Sys2Proof.Machine

/-!
PROOFS. Family other, part 4: the decoder and the encoder (30_encoding.md sections 1, 3, 7). What `parseMsg` reads is described
once through MSG_DES, which reads the same bytes; the strings of the other formats are read by their fields. Round trips,
well-formedness and the agreement of a string with the operation that reads it follow from these descriptions.
-/

namespace Sys2Proof.Machine

/-! ### The strings of the envelope -/

/-- The row of the wire formats that a message's encoding is a string of (R57 to R59). -/
def messageRow : Message → Instr
  | .data peaks => .msgData peaks
  | .status st => .msgStatus (statByte st)
  | .config c => .msgConfig c

theorem encode_messageRow (m : Message) : encode (messageRow m) = .wire .msg (msgBytes m) := by
  cases m <;> rfl

theorem wellFormed_messageRow {m : Message} (h : m.presentable = true) : (messageRow m).wellFormed = true := by
  cases m with
  | data ps => exact decide_eq_true (length_lt_of_presentable h)
  | status st => rfl
  | config c => rfl

theorem answerOf_messageRow {m : Message} (h : m.presentable = true) :
    answerOf (messageRow m) = .ok (.ok (.msg m (msgLen m))) := by
  cases m with
  | data ps => exact if_pos (length_lt_of_presentable h)
  | status st => cases st <;> rfl
  | config c => rfl

/-- The row that stands for what a decode of the envelope gave. -/
def rowOfDecoded : Decoded Message → Option Instr
  | .ok m _ => some (messageRow m)
  | .raised _ => none

/-- Behind the tags `Data` and `Config` the parser makes the tests of MSG_DES and keeps the message (R125, R127). -/
theorem parseMsg_data (rest : Buffer) : parseMsg (tagData :: rest) = rowOfDecoded (msgDes (tagData :: rest)) := by
  have hparse : parseMsg (tagData :: rest) =
      if (tagData :: rest).length < 9 then none
      else if (tagData :: rest).length - 9 < (be64At (tagData :: rest) 1).toNat * 18 then none
      else some (.msgData (peaks18At (tagData :: rest) 9 (be64At (tagData :: rest) 1).toNat)) := rfl
  rw [hparse, msgDes_data]
  simp only [dataDes, Config.dataHdrLen, Config.peakLen, apply_ite rowOfDecoded]
  rfl

theorem parseMsg_config (rest : Buffer) : parseMsg (tagConfig :: rest) = rowOfDecoded (msgDes (tagConfig :: rest)) := by
  have hparse : parseMsg (tagConfig :: rest) =
      if (tagConfig :: rest).length < 41 then none else some (.msgConfig (cfg40At (tagConfig :: rest) 1)) := rfl
  rw [hparse, msgDes_config]
  simp only [configDes, desFixed, Config.msgConfigLen, apply_ite rowOfDecoded]
  rfl

theorem parseMsg_status (x : Byte) (rest : Buffer) : parseMsg (tagStatus :: x :: rest) = some (.msgStatus x) := rfl

theorem parseMsg_other {x : Byte} (h : 3 ≤ x.toNat) (rest : Buffer) : parseMsg (x :: rest) = some (.msgInvalidTag x) := by
  obtain ⟨h0, h1, h2⟩ := tag_ne_of_three_le h
  rw [parseMsg, if_neg h0, if_neg h1, if_neg h2]

/-- A message's encoding is read as the message's row. -/
theorem parseMsg_msgBytes {m : Message} (h : m.presentable = true) : parseMsg (msgBytes m) = some (messageRow m) := by
  have hread : msgDes (msgBytes m) = .ok m (msgLen m) := by simpa using msgDes_msgBytes m h []
  cases m with
  | data ps => exact (parseMsg_data _).trans (congrArg rowOfDecoded hread)
  | status st => rfl
  | config c => exact (parseMsg_config _).trans (congrArg rowOfDecoded hread)

/-! ### The round trip -/

theorem decode_wire {f : WireFormat} {b : Buffer} {i : Instr} (h : parseWire f b = some i) : decode (.wire f b) = .ok i := by
  rw [decode, h]

theorem decodeMsgSer_of_presentable {m : Message} (h : m.presentable = true) : decodeMsgSer m = .ok (.msgSer m) := by
  cases m with
  | data ps => exact if_pos (of_decide_eq_true h)
  | status st => rfl
  | config c => rfl

theorem decode_request_msgSer {r : Request} (h : r.op = 0xD) : decode (.request r) = decodeMsgSer r.msg := by
  simp [decode, decodeRequest, h]

theorem decode_request_msgDes {r : Request} (h : r.op = 0xE) : decode (.request r) = .ok (.msgDes r.input) := by
  simp [decode, decodeRequest, h]

theorem parseWire_be16 (v : BitVec 16) : parseWire .be16 (beEnc16 v) = some (.be16 v) := by
  rw [parseWire, if_pos (length_beEnc16 v)]
  exact congrArg (some ∘ Instr.be16) (be16At_beEnc16 v [])

theorem parseWire_be32 (v : BitVec 32) : parseWire .be32 (beEnc32 v) = some (.be32 v) := by
  rw [parseWire, if_pos (length_beEnc32 v)]
  exact congrArg (some ∘ Instr.be32) (be32At_beEnc32 v [])

theorem parseWire_be64 (v : BitVec 64) : parseWire .be64 (beEnc64 v) = some (.be64 v) := by
  rw [parseWire, if_pos (length_beEnc64 v)]
  exact congrArg (some ∘ Instr.be64) (be64At_beEnc64 v [])

theorem parseWire_packed12 (t : BitVec 40) (c : BitVec 18) (s : BitVec 10) (h : BitVec 28) :
    parseWire .packed12 (packed12Bytes t c s h) = some (.packed12 t c s h) := by
  rw [parseWire, if_pos (length_packed12Bytes t c s h), packedRead_timestamp_packed12Bytes, packedRead_cycle_packed12Bytes,
    packedRead_speed_packed12Bytes, packedRead_peakHeight_packed12Bytes]

theorem parseWire_peak18 (p : MeasuredPeak) : parseWire .peak18 (peak18Bytes p) = some (.peak18 p) := by
  rw [parseWire, if_neg (by rw [length_peak18Bytes]; decide), peak18At_peak18Bytes_zero]

theorem parseWire_cfg40 (c : FilterConfig) : parseWire .cfg40 (cfg40Bytes c) = some (.cfg40 c) := by
  rw [parseWire, if_neg (by rw [length_cfg40Bytes]; decide), cfg40At_cfg40Bytes_zero]

theorem ne_of_two_le {x : Byte} (h : 2 ≤ x.toNat) : x ≠ 0x00 ∧ x ≠ 0x01 := by
  constructor <;> (rintro rfl; revert h; decide)

theorem parseWire_statInvalid {x : Byte} (h : 2 ≤ x.toNat) (rest : Buffer) :
    parseWire .stat1 (x :: rest) = some (.statInvalid x) := by
  obtain ⟨h0, h1⟩ := ne_of_two_le h
  rw [parseWire, if_neg h0, if_neg h1]

/-- Settles O42: a request carries its operand unchanged, and each format's string is read back by its fields. -/
theorem decodeEncodeRoundTrip : Obligations.DecodeEncodeRoundTrip := by
  intro i hwf
  cases i with
  | enc16 v => exact (decode_request_enc16 rfl).trans (by rw [BitVec.setWidth_setWidth_of_le _ (by decide), BitVec.setWidth_eq])
  | enc32 v => exact (decode_request_enc32 rfl).trans (by rw [BitVec.setWidth_setWidth_of_le _ (by decide), BitVec.setWidth_eq])
  | msgSer m => exact (decode_request_msgSer rfl).trans (decodeMsgSer_of_presentable hwf)
  | be16 v => exact decode_wire (parseWire_be16 v)
  | be32 v => exact decode_wire (parseWire_be32 v)
  | be64 v => exact decode_wire (parseWire_be64 v)
  | packed12 t c s h => exact decode_wire (parseWire_packed12 t c s h)
  | peak18 p => exact decode_wire (parseWire_peak18 p)
  | cfg40 c => exact decode_wire (parseWire_cfg40 c)
  | statInvalid x => exact decode_wire (parseWire_statInvalid (of_decide_eq_true hwf) [])
  | msgData ps =>
    have hm : (Message.data ps).presentable = true := decide_eq_true (Nat.le_sub_one_of_lt (of_decide_eq_true hwf))
    exact decode_wire (parseMsg_msgBytes hm)
  | msgConfig c => exact decode_wire (parseMsg_msgBytes (m := .config c) rfl)
  | msgInvalidTag x => exact decode_wire (parseMsg_other (of_decide_eq_true hwf) [])
  | _ => rfl

/-! ### What a string is read as -/

/-- The strings `parseWire` reads, format by format: their fields where they stand, a message MSG_DES reads, and the reserved
values (R51 to R59, R62, R63). -/
inductive ReadAs (b : Buffer) : WireFormat → Instr → Prop where
  | be16 (h : b.length = 2) : ReadAs b .be16 (.be16 (be16At b 0))
  | be32 (h : b.length = 4) : ReadAs b .be32 (.be32 (be32At b 0))
  | be64 (h : b.length = 8) : ReadAs b .be64 (.be64 (be64At b 0))
  | packed12 (h : b.length = 12) :
    ReadAs b .packed12 (.packed12 (packedRead b 0 40) (packedRead b 40 18) (packedRead b 58 10) (packedRead b 68 28))
  | peak18 (h : 18 ≤ b.length) : ReadAs b .peak18 (.peak18 (peak18At b 0))
  | cfg40 (h : 40 ≤ b.length) : ReadAs b .cfg40 (.cfg40 (cfg40At b 0))
  | statStart {rest : Buffer} (h : b = 0x00 :: rest) : ReadAs b .stat1 .statStart
  | statStop {rest : Buffer} (h : b = 0x01 :: rest) : ReadAs b .stat1 .statStop
  | statInvalid {x : Byte} {rest : Buffer} (h : b = x :: rest) (hx : 2 ≤ x.toNat) : ReadAs b .stat1 (.statInvalid x)
  | message {m : Message} {c : Nat} (h : msgDes b = .ok m c) : ReadAs b .msg (messageRow m)
  | msgStatus {x : Byte} {rest : Buffer} (h : b = tagStatus :: x :: rest) : ReadAs b .msg (.msgStatus x)
  | msgInvalidTag {x : Byte} {rest : Buffer} (h : b = x :: rest) (hx : 3 ≤ x.toNat) : ReadAs b .msg (.msgInvalidTag x)

theorem readAs_of_parseMsg {b : Buffer} {i : Instr} (h : parseMsg b = some i) : ReadAs b .msg i := by
  have hrow (hd : rowOfDecoded (msgDes b) = some i) : ReadAs b .msg i := by
    cases hdes : msgDes b with
    | ok m c =>
      rw [hdes, rowOfDecoded, Option.some.injEq] at hd
      exact hd ▸ .message hdes
    | raised e =>
      rw [hdes] at hd
      cases hd
  cases b with
  | nil => cases h
  | cons tag rest =>
    obtain rfl | rfl | rfl | htag := tag_cases tag
    · exact hrow (parseMsg_data rest ▸ h)
    · cases rest with
      | nil => cases h
      | cons x rest =>
        rw [parseMsg_status, Option.some.injEq] at h
        exact h ▸ .msgStatus rfl
    · exact hrow (parseMsg_config rest ▸ h)
    · rw [parseMsg_other htag, Option.some.injEq] at h
      exact h ▸ .msgInvalidTag rfl htag

theorem two_le_of_ne {x : Byte} (h0 : x ≠ 0x00) (h1 : x ≠ 0x01) : 2 ≤ x.toNat := by
  have h0' : x.toNat ≠ 0 := fun h => h0 (BitVec.eq_of_toNat_eq h)
  have h1' : x.toNat ≠ 1 := fun h => h1 (BitVec.eq_of_toNat_eq h)
  omega

theorem readAs_of_parseWire {f : WireFormat} {b : Buffer} {i : Instr} (h : parseWire f b = some i) : ReadAs b f i := by
  cases f with
  | be16 =>
    obtain ⟨hlen, hi⟩ := Option.ite_none_right_eq_some.mp h
    exact Option.some.inj hi ▸ .be16 hlen
  | be32 =>
    obtain ⟨hlen, hi⟩ := Option.ite_none_right_eq_some.mp h
    exact Option.some.inj hi ▸ .be32 hlen
  | be64 =>
    obtain ⟨hlen, hi⟩ := Option.ite_none_right_eq_some.mp h
    exact Option.some.inj hi ▸ .be64 hlen
  | packed12 =>
    obtain ⟨hlen, hi⟩ := Option.ite_none_right_eq_some.mp h
    exact Option.some.inj hi ▸ .packed12 hlen
  | peak18 =>
    obtain ⟨hlen, hi⟩ := Option.ite_none_left_eq_some.mp h
    exact Option.some.inj hi ▸ .peak18 (Nat.le_of_not_lt hlen)
  | cfg40 =>
    obtain ⟨hlen, hi⟩ := Option.ite_none_left_eq_some.mp h
    exact Option.some.inj hi ▸ .cfg40 (Nat.le_of_not_lt hlen)
  | stat1 =>
    cases b with
    | nil => cases h
    | cons x rest =>
      by_cases h0 : x = 0x00
      · subst h0
        exact Option.some.inj h ▸ .statStart rfl
      · by_cases h1 : x = 0x01
        · subst h1
          exact Option.some.inj h ▸ .statStop rfl
        · have hx := two_le_of_ne h0 h1
          rw [parseWire_statInvalid hx, Option.some.injEq] at h
          exact h ▸ .statInvalid rfl hx
  | msg => exact readAs_of_parseMsg h

/-- Settles O43: the fields read are written back as the bytes they were read from, and a message's row as what was consumed. -/
theorem wireStringsHaveOneEncoding : Obligations.WireStringsHaveOneEncoding := by
  intro f b i h
  have htake {f : WireFormat} {i : Instr} {bytes : Buffer} {n : Nat} (hn : n ≤ b.length) (hi : encode i = .wire f bytes)
      (hbytes : bytes = memRead b 0 n) : ∃ n, n ≤ b.length ∧ encode i = .wire f (b.take n) :=
    ⟨n, hn, by rw [hi, hbytes, memRead, List.drop_zero]⟩
  cases readAs_of_parseWire h with
  | be16 hlen => exact htake hlen.ge rfl (beEnc16_be16At hlen.ge)
  | be32 hlen => exact htake hlen.ge rfl (beEnc32_be32At hlen.ge)
  | be64 hlen => exact htake hlen.ge rfl (beEnc64_be64At hlen.ge)
  | packed12 hlen => exact htake hlen.ge rfl ((packed12Bytes_packedRead hlen).trans (memRead_all hlen).symm)
  | peak18 hlen => exact htake hlen rfl (peak18Bytes_peak18At hlen)
  | cfg40 hlen => exact htake hlen rfl (cfg40Bytes_cfg40At hlen)
  | statStart hb => subst hb; exact ⟨1, Nat.succ_le_succ (Nat.zero_le _), rfl⟩
  | statStop hb => subst hb; exact ⟨1, Nat.succ_le_succ (Nat.zero_le _), rfl⟩
  | statInvalid hb hx => subst hb; exact ⟨1, Nat.succ_le_succ (Nat.zero_le _), rfl⟩
  | message hread =>
    obtain ⟨-, hle, -, hbytes⟩ := msgDes_ok hread
    exact ⟨_, hle, by rw [encode_messageRow, hbytes]⟩
  | msgStatus hb => subst hb; exact ⟨2, Nat.succ_le_succ (Nat.succ_le_succ (Nat.zero_le _)), rfl⟩
  | msgInvalidTag hb hx => subst hb; exact ⟨1, Nat.succ_le_succ (Nat.zero_le _), rfl⟩

/-! ### Well-formedness -/

/-- The operands of the primitive decoders have their size by type (R83 to R85). -/
theorem decodeDec16_of_length {b : Buffer} (h : b.length = 2) : decodeDec16 b = .ok (.dec16 (byteAt b 0) (byteAt b 1)) :=
  match b, h with
  | [_, _], _ => rfl

theorem decodeDec32_of_length {b : Buffer} (h : b.length = 4) :
    decodeDec32 b = .ok (.dec32 (byteAt b 0) (byteAt b 1) (byteAt b 2) (byteAt b 3)) :=
  match b, h with
  | [_, _, _, _], _ => rfl

theorem decodeDec64_of_length {b : Buffer} (h : b.length = 8) :
    decodeDec64 b = .ok (.dec64 (byteAt b 0) (byteAt b 1) (byteAt b 2) (byteAt b 3) (byteAt b 4) (byteAt b 5) (byteAt b 6)
      (byteAt b 7)) :=
  match b, h with
  | [_, _, _, _, _, _, _, _], _ => rfl

theorem decodeDec16_of_length_ne {b : Buffer} (h : b.length ≠ 2) : decodeDec16 b = .error (.operandLength 2 b.length) := by
  rw [decodeDec16]
  rintro b0 b1 rfl
  exact h rfl

theorem decodeDec32_of_length_ne {b : Buffer} (h : b.length ≠ 4) : decodeDec32 b = .error (.operandLength 4 b.length) := by
  rw [decodeDec32]
  rintro b0 b1 b2 b3 rfl
  exact h rfl

theorem decodeDec64_of_length_ne {b : Buffer} (h : b.length ≠ 8) : decodeDec64 b = .error (.operandLength 8 b.length) := by
  rw [decodeDec64]
  rintro b0 b1 b2 b3 b4 b5 b6 b7 rfl
  exact h rfl

theorem decodeMsgSer_of_not_presentable {ps : List MeasuredPeak} (h : ¬ (Message.data ps).presentable = true) :
    decodeMsgSer (.data ps) = .error (.dataTooLong ps.length) :=
  if_neg fun hle => h (decide_eq_true hle)

end Sys2Proof.Machine

/-!
PROOFS. Family other, part 5: requests. Which refusals the decoder gives, that it gives well-formed instructions only, that a field
no operation uses does not matter (R11), and that a wire string is answered as the operation that reads it (R50).
-/

namespace Sys2Proof.Machine

/-! ### The decoder's results -/

theorem wellFormed_of_decodeDec16 {b : Buffer} {i : Instr} (h : decodeDec16 b = .ok i) : i.wellFormed = true := by
  by_cases hlen : b.length = 2
  · rw [decodeDec16_of_length hlen] at h
    exact Except.ok.inj h ▸ rfl
  · rw [decodeDec16_of_length_ne hlen] at h
    cases h

theorem wellFormed_of_decodeDec32 {b : Buffer} {i : Instr} (h : decodeDec32 b = .ok i) : i.wellFormed = true := by
  by_cases hlen : b.length = 4
  · rw [decodeDec32_of_length hlen] at h
    exact Except.ok.inj h ▸ rfl
  · rw [decodeDec32_of_length_ne hlen] at h
    cases h

theorem wellFormed_of_decodeDec64 {b : Buffer} {i : Instr} (h : decodeDec64 b = .ok i) : i.wellFormed = true := by
  by_cases hlen : b.length = 8
  · rw [decodeDec64_of_length hlen] at h
    exact Except.ok.inj h ▸ rfl
  · rw [decodeDec64_of_length_ne hlen] at h
    cases h

theorem wellFormed_of_decodeMsgSer {m : Message} {i : Instr} (h : decodeMsgSer m = .ok i) : i.wellFormed = true := by
  by_cases hm : m.presentable = true
  · rw [decodeMsgSer_of_presentable hm] at h
    exact Except.ok.inj h ▸ hm
  · cases m with
    | data ps =>
      rw [decodeMsgSer_of_not_presentable hm] at h
      cases h
    | status st => exact absurd rfl hm
    | config c => exact absurd rfl hm

/-- Only the operand of MSG_SER has a check, and the decoder makes it (R121). -/
theorem wellFormed_of_decodeRequest {r : Request} {i : Instr} (h : decodeRequest r = .ok i) : i.wellFormed = true := by
  unfold decodeRequest at h
  split at h
  case h_4 => exact wellFormed_of_decodeDec16 h
  case h_5 => exact wellFormed_of_decodeDec32 h
  case h_6 => exact wellFormed_of_decodeDec64 h
  case h_14 => exact wellFormed_of_decodeMsgSer h
  all_goals exact Except.ok.inj h ▸ rfl

theorem wellFormed_of_readAs {b : Buffer} {f : WireFormat} {i : Instr} (h : ReadAs b f i) : i.wellFormed = true := by
  cases h with
  | statInvalid hb hx => exact decide_eq_true hx
  | msgInvalidTag hb hx => exact decide_eq_true hx
  | message hread =>
    obtain ⟨-, -, hm, -⟩ := msgDes_ok hread
    exact wellFormed_messageRow hm
  | _ => rfl

theorem wellFormed_of_decode {p : Presented} {i : Instr} (h : decode p = .ok i) : i.wellFormed = true := by
  cases p with
  | request r => exact wellFormed_of_decodeRequest h
  | wire f b =>
    rw [decode] at h
    cases hparse : parseWire f b with
    | none =>
      rw [hparse] at h
      exact wellFormed_of_decodeRequest h
    | some j =>
      rw [hparse] at h
      exact Except.ok.inj h ▸ wellFormed_of_readAs (readAs_of_parseWire hparse)

/-- Settles O44: a request's operand is checked, and a string's reserved values and counts are what the parser tested. -/
theorem decodeGivesWellFormed : Obligations.DecodeGivesWellFormed := fun _ _ h => wellFormed_of_decode h

/-- Settles O45: the decoder looks at `op` and then at one field. -/
theorem unusedRequestFieldsAreIgnored : Obligations.UnusedRequestFieldsAreIgnored := by
  intro r q hop hval hinput hpeak hcfg hstat hmsg
  change decodeRequest r = decodeRequest q
  rw [decodeRequest, decodeRequest, ← hop]
  split
  case h_1 hk => rw [hval (by omega)]
  case h_2 hk => rw [hval (by omega)]
  case h_3 hk => rw [hval (by omega)]
  case h_8 hk => rw [hpeak hk]
  case h_10 hk => rw [hcfg hk]
  case h_12 hk => rw [hstat hk]
  case h_14 hk => rw [hmsg hk]
  case h_16 => rfl
  all_goals
    rename_i hk
    rw [hinput (by rw [hk]; decide)]

/-- Settles O2: the narrowing of `val` to the operation's width is the remainder. -/
theorem wideValuesGiveTheirLowBits : Obligations.WideValuesGiveTheirLowBits :=
  ⟨fun r hop => ⟨_, decode_request_enc16 hop, BitVec.toNat_setWidth 16 r.val⟩,
    fun r hop => ⟨_, decode_request_enc32 hop, BitVec.toNat_setWidth 32 r.val⟩⟩

/-- Settles O46: each word is small, so the decoder is run on it. -/
theorem tableWordsDecode : Obligations.TableWordsDecode := by
  unfold Obligations.TableWordsDecode
  decide

/-! ### The reply to a transaction -/

/-- What the machine replies to a transaction: its instruction's answer, or the refusal of what is no instruction. -/
def replyTo (p : Presented) : Except Refusal Response :=
  match decode p with
  | .ok i => answerOf i
  | .error e => .error (refusalOf e)

theorem replyTo_of_decode {p : Presented} {i : Instr} (h : decode p = .ok i) : replyTo p = answerOf i := by
  rw [replyTo, h]

theorem replyTo_of_decode_error {p : Presented} {e : DecodeError} (h : decode p = .error e) :
    replyTo p = .error (refusalOf e) := by
  rw [replyTo, h]

/-- MSG_DES answers a `Status` message by the value check of the byte behind the tag, as the row MSG_STATUS does (R58, R126). -/
theorem responseOf_msgDes_statusByte (x : Byte) (rest : Buffer) :
    responseOf .msg (msgDes (tagStatus :: x :: rest)) =
      responseOf (fun st c => .msg (.status st) c) (statDecoded x Config.msgStatusLen) := by
  rw [msgDes_status, statusDes, if_neg (by simp), byteAt_cons_succ, byteAt_cons_zero]
  cases statDecoded x Config.msgStatusLen <;> rfl

/-- A string's instruction answers what the reading operation answers on the same bytes (R50, log 8). -/
theorem replyTo_reading_of_readAs {b : Buffer} {f : WireFormat} {i : Instr} (h : ReadAs b f i) :
    replyTo (.request (Request.reading f b)) = answerOf i := by
  have hmsg {b : Buffer} : replyTo (.request (Request.reading .msg b)) = .ok (responseOf .msg (msgDes b)) :=
    replyTo_of_decode (decode_request_msgDes rfl)
  cases h with
  | be16 hlen => exact replyTo_of_decode (i := .dec16 _ _) ((decode_request_dec16 rfl).trans (decodeDec16_of_length hlen))
  | be32 hlen => exact replyTo_of_decode (i := .dec32 _ _ _ _) ((decode_request_dec32 rfl).trans (decodeDec32_of_length hlen))
  | be64 hlen => exact replyTo_of_decode (i := .dec64 _ _ _ _ _ _ _ _) ((decode_request_dec64 rfl).trans (decodeDec64_of_length hlen))
  | packed12 hlen =>
    have hanswer : answerOf (.unpackPeak b) = .ok (.ok (.unpacked (packed12Peak b))) := congrArg Except.ok (if_pos hlen)
    rw [packed12Peak_eq_packedRecord] at hanswer
    exact (replyTo_of_decode (decode_request_unpackPeak rfl)).trans hanswer
  | peak18 hlen =>
    have hdes : peakDes b = .ok (peak18At b 0) 18 := desFixed_eq_ok_iff.mpr ⟨hlen, rfl, rfl⟩
    exact (replyTo_of_decode (decode_request_peakDes rfl)).trans (congrArg (Except.ok ∘ responseOf .peak) hdes)
  | cfg40 hlen =>
    have hdes : cfgDes b = .ok (cfg40At b 0) 40 := desFixed_eq_ok_iff.mpr ⟨hlen, rfl, rfl⟩
    exact (replyTo_of_decode (decode_request_cfgDes rfl)).trans (congrArg (Except.ok ∘ responseOf .cfg) hdes)
  | statStart hb => subst hb; rfl
  | statStop hb => subst hb; rfl
  | statInvalid hb hx => subst hb; rfl
  | message hread =>
    obtain ⟨rfl, -, hm, -⟩ := msgDes_ok hread
    rw [hmsg, hread, answerOf_messageRow hm, responseOf]
  | msgStatus hb =>
    subst hb
    rw [hmsg, responseOf_msgDes_statusByte, answerOf]
  | msgInvalidTag hb hx =>
    subst hb
    rw [hmsg, answerOf, msgDes_other hx, msgDes_other hx]

/-- Every string is replied to as the reading operation's request is, a whole string or not (R50, log 8). -/
theorem replyTo_wire (f : WireFormat) (b : Buffer) : replyTo (.wire f b) = replyTo (.request (Request.reading f b)) := by
  cases h : parseWire f b with
  | none => rw [replyTo, decode, h]; rfl
  | some i => rw [replyTo_of_decode (decode_wire h), replyTo_reading_of_readAs (readAs_of_parseWire h)]

/-- No transaction but op 0xF stays without a response, once it decodes (R172). -/
theorem replyTo_of_decode_ok {p : Presented} {i : Instr} (h : decode p = .ok i) (hop : i ≠ .opFRefused) :
    ∃ r, replyTo p = .ok r := by
  rw [replyTo_of_decode h]
  exact answerOf_of_wellFormed (wellFormed_of_decode h) hop

/-- A caller's visible duties are what keeps `FLT` and every refusal away (R162). -/
theorem replyTo_of_dutiful {p : Presented} (h : p.dutiful = true) : ∃ r, replyTo p = .ok r ∧ r ≠ .raised .invalidInputLength := by
  cases hp : decode p with
  | error e => simp [Presented.dutiful, hp] at h
  | ok i =>
    have hop : i ≠ .opFRefused := by
      rintro rfl
      simp [Presented.dutiful, hp] at h
    obtain ⟨r, hr⟩ := replyTo_of_decode_ok hp hop
    refine ⟨r, hr, ?_⟩
    rintro rfl
    rw [replyTo_of_decode hp, answerOf_eq_fault_iff] at hr
    obtain ⟨input, rfl, hlen⟩ := hr
    simp [Presented.dutiful, hp, hlen] at h

end Sys2Proof.Machine

/-!
PROOFS. Family other, part 6: the machine. `step_of_pending` says once what a step does with a transaction waiting, and
`step_eq_next_iff` what a step that goes on can have done; the claims about order, reset, repetition and progress follow from these.
-/

namespace Sys2Proof.Machine

/-! ### One step -/

/-- With a transaction waiting, a step gives the machine's reply to it on the state without it (R38, R40). -/
theorem step_of_pending {s : State} {p : Presented} {rest : List Presented} (h : s.pending = p :: rest) :
    step s = outcomeOf (replyTo p) { s with pending := rest } := by
  rw [step, State.take?_cons h]
  cases hp : decode p with
  | ok i => simp only [hp, replyTo_of_decode hp, exec_eq_outcomeOf]
  | error e => simp only [hp, replyTo_of_decode_error hp, outcomeOf_error]

theorem step_of_idle {s : State} (h : s.pending = []) : step s = .next s := by
  rw [step, State.take?_nil h]

/-- A step that goes on was idle or gave the response to the oldest transaction. -/
theorem step_eq_next_iff {s t : State} :
    step s = .next t ↔
      (s.pending = [] ∧ s = t) ∨
        ∃ p rest r, s.pending = p :: rest ∧ replyTo p = .ok r ∧ ({ s with pending := rest } : State).respond r = t := by
  cases hs : s.pending with
  | nil => simp [step_of_idle hs]
  | cons p rest => simp [step_of_pending hs, outcomeOf_eq_next_iff]

/-- The response held is not read: the step is the same on any other. -/
theorem step_eq_of_pending_eq {s u : State} (hpending : s.pending = u.pending) (hne : u.pending ≠ [])
    (hfault : s.runFault = u.runFault) : step s = step u := by
  obtain ⟨p, rest, hu⟩ := List.exists_cons_of_ne_nil hne
  rw [step_of_pending (hpending.trans hu), step_of_pending hu]
  cases replyTo p with
  | error x => rfl
  | ok r => simp only [outcomeOf_ok, State.respond_eq, hfault]

/-- Settles O47: the step takes the oldest transaction and runs what it decodes to. -/
theorem stepRunsTheDecodedInstruction : Obligations.StepRunsTheDecodedInstruction :=
  fun _ _ _ _ hs hp => step_of_decode_ok hs hp

/-- Settles O49: there is no transaction to take. -/
theorem idleStepChangesNothing : Obligations.IdleStepChangesNothing := fun _ h => step_of_idle h

/-- Settles O52: a reply is a response or a refusal. -/
theorem noStepStopsWithAFault : Obligations.NoStepStopsWithAFault := by
  intro s f
  cases hs : s.pending with
  | nil => simp [step_of_idle hs]
  | cons p rest =>
    rw [step_of_pending hs]
    exact outcomeOf_ne_fault _ _ f

/-- Settles O41: the string and the request of its reading operation have the same reply. -/
theorem wireStringsAreReadByTheirOperation : Obligations.WireStringsAreReadByTheirOperation := by
  intro f b s
  rw [step_of_pending rfl, step_of_pending rfl, replyTo_wire]
  rfl

/-- Settles O51: every instruction the decoder gives but OP_F_REFUSED has a response. -/
theorem everyTransactionCompletes : Obligations.EveryTransactionCompletes := by
  intro p i s rest hp hop hs
  obtain ⟨r, hr⟩ := replyTo_of_decode_ok hp hop
  refine ⟨_, r, ?_, State.respond_pending r { s with pending := rest }, State.respond_response r _⟩
  rw [step_of_pending hs, hr, outcomeOf_ok]

/-! ### Order, history and repetition -/

/-- Settles O48: the oldest transaction is the same one, and giving its response leaves the list of the others alone. -/
theorem laterTransactionsDoNotOvertake : Obligations.LaterTransactionsDoNotOvertake := by
  refine ⟨fun s p hne => ?_, fun s p hs => ?_⟩
  · obtain ⟨q, rest, hs⟩ := List.exists_cons_of_ne_nil hne
    have hs' : (s.present p).pending = q :: (rest ++ [p]) := by rw [State.present_pending, hs, List.cons_append]
    rw [step_of_pending hs, step_of_pending hs']
    refine ⟨fun t ht => ?_, fun x hx => ?_⟩
    · obtain ⟨r, hr, rfl⟩ := outcomeOf_eq_next_iff.mp ht
      simp only [hr, outcomeOf_ok, State.respond_eq, State.present_runFault]
    · rw [outcomeOf_eq_refused_iff.mp hx, outcomeOf_error]
  · rw [State.present, hs, List.nil_append]

/-- Two states with the same oldest transaction are given the same reply, whatever else they hold. -/
theorem step_same_reply {s u : State} {p : Presented} {rest later : List Presented} (hs : s.pending = p :: rest)
    (hu : u.pending = p :: later) :
    (∀ t, step s = .next t → ∃ w, step u = .next w ∧ w.response = t.response ∧ w.pending = later ∧ t.pending = rest) ∧
      (∀ x, step s = .refused x → step u = .refused x) := by
  rw [step_of_pending hs, step_of_pending hu]
  refine ⟨fun t ht => ?_, fun x hx => ?_⟩
  · obtain ⟨r, hr, rfl⟩ := outcomeOf_eq_next_iff.mp ht
    rw [hr]
    exact ⟨_, outcomeOf_ok r _, by simp, by simp, by simp⟩
  · rw [outcomeOf_eq_refused_iff.mp hx, outcomeOf_error]

/-- Settles O53: the reply is a function of the transaction. -/
theorem nothingIsHeldBetweenTransactions : Obligations.NothingIsHeldBetweenTransactions :=
  fun _ _ _ _ _ hs hu => step_same_reply hs hu

/-- Settles O54: the second response writes what the first one wrote. -/
theorem repeatingATransactionIsIdempotent : Obligations.RepeatingATransactionIsIdempotent := by
  intro p s t h
  rw [step_of_pending rfl] at h ⊢
  obtain ⟨r, hr, rfl⟩ := outcomeOf_eq_next_iff.mp h
  rw [hr, outcomeOf_ok]
  simp only [State.respond_eq]
  split <;> rfl

/-! ### Reset -/

/-- Settles O55: reset's fields are empty by definition, and neither they nor the response a reset removes are read by a step. -/
theorem firstTransactionAfterResetIsLikeAnyOther : Obligations.FirstTransactionAfterResetIsLikeAnyOther := by
  refine ⟨rfl, rfl, rfl, fun p s rest hs => ?_⟩
  have hfirst := step_same_reply (u := { State.reset with pending := [p] }) hs rfl
  refine ⟨fun t ht => ?_, hfirst.2, ?_⟩
  · obtain ⟨w, hw, hresponse, -, -⟩ := hfirst.1 t ht
    exact ⟨w, hw, hresponse⟩
  · exact step_eq_of_pending_eq rfl (hs ▸ List.cons_ne_nil p rest) rfl

/-- Settles O56: the reset drops the oldest transaction and the response, and a step reads neither. -/
theorem cutShortTransactionsMustBeReissued : Obligations.CutShortTransactionsMustBeReissued := by
  intro s p rest hs
  have hleft : s.resetDuring.pending = rest := by rw [State.resetDuring_pending, hs, List.tail_cons]
  refine ⟨rfl, hleft, rfl, ?_, ?_⟩
  · rintro q later rfl
    exact step_eq_of_pending_eq hleft (List.cons_ne_nil q later) rfl
  · rintro rfl
    refine ⟨step_of_idle hleft, step_eq_of_pending_eq ?_ (hs ▸ List.cons_ne_nil p []) rfl⟩
    rw [State.present_pending, hleft, hs, List.nil_append]

/-! ### Refusals -/

/-- A transaction that does not decode is refused by the decoder's reason, whatever else waits. -/
theorem step_of_decode_error {s : State} {p : Presented} {rest : List Presented} {e : DecodeError} (hs : s.pending = p :: rest)
    (hp : decode p = .error e) : step s = .refused (refusalOf e) := by
  rw [step_of_pending hs, replyTo_of_decode_error hp, outcomeOf_error]

/-- Settles O5: the operand's size is its type's, or there is no instruction. -/
theorem primitiveDecodersRefuseOtherSizes : Obligations.PrimitiveDecodersRefuseOtherSizes := by
  intro s r rest hs
  refine ⟨fun hop hlen => ?_, fun hop hlen => ?_, fun hop hlen => ?_⟩
  · exact step_of_decode_error hs ((decode_request_dec16 hop).trans (decodeDec16_of_length_ne hlen))
  · exact step_of_decode_error hs ((decode_request_dec32 hop).trans (decodeDec32_of_length_ne hlen))
  · exact step_of_decode_error hs ((decode_request_dec64 hop).trans (decodeDec64_of_length_ne hlen))

/-- Settles O19: the message is not presentable. -/
theorem msgSerRefusesMoreThanMaxPeaks : Obligations.MsgSerRefusesMoreThanMaxPeaks := by
  intro s r rest peaks hs hop hmsg hlen
  have hm : ¬ (Message.data peaks).presentable = true := fun h => Nat.not_lt.mpr hlen (length_lt_of_presentable h)
  have hp : decode (.request r) = .error (.dataTooLong peaks.length) := by
    rw [decode_request_msgSer hop, hmsg, decodeMsgSer_of_not_presentable hm]
  exact step_of_decode_error hs hp

/-! ### Runs -/

/-- One step of a caller that keeps its duties: the oldest transaction is taken and no fault is recorded (R162). -/
theorem step_of_dutiful {s : State} (hduty : ∀ p ∈ s.pending, p.dutiful = true) (hgood : s.good) :
    ∃ t, step s = .next t ∧ t.good ∧ t.pending = s.pending.tail := by
  cases hs : s.pending with
  | nil => exact ⟨s, step_of_idle hs, hgood, hs⟩
  | cons p rest =>
    obtain ⟨r, hr, hne⟩ := replyTo_of_dutiful (hduty p (hs ▸ List.mem_cons_self))
    refine ⟨_, ?_, ?_, State.respond_pending r { s with pending := rest }⟩
    · rw [step_of_pending hs, hr, outcomeOf_ok]
    · exact (State.respond_runFault_of_ne hne _).trans hgood

theorem run_succ_of_step {s t : State} (h : step s = .next t) (k : Nat) :
    Host.Core.run Sys2Proof.core (k + 1) s = Host.Core.run Sys2Proof.core k t := by
  have hstep : Host.Core.step Sys2Proof.core s = .next t := h
  simp only [Host.Core.run, hstep]

/-- Settles O60, by induction on the number of steps: a step leaves a caller that keeps its duties in a good state. -/
theorem dutifulCallersNeverFault : Obligations.DutifulCallersNeverFault := by
  intro k
  induction k with
  | zero => exact fun s _ hgood => ⟨s, rfl, hgood, rfl⟩
  | succ k ih =>
    intro s hduty hgood
    obtain ⟨t, ht, htgood, htpending⟩ := step_of_dutiful hduty hgood
    have htduty : ∀ p ∈ t.pending, p.dutiful = true := fun p hp => hduty p (List.mem_of_mem_tail (htpending ▸ hp))
    obtain ⟨w, hw, hwgood, hwpending⟩ := ih t htduty htgood
    exact ⟨w, (run_succ_of_step ht k).trans hw, hwgood, by rw [hwpending, htpending, List.drop_tail]⟩

end Sys2Proof.Machine

/-!
PROOFS. Family other, part 7: the responses. Every answer is a legal response (R12, R13, R34, R141), so every step keeps the
machine's invariant; and the fields that can be read of it are those its result holds (R13).
-/

namespace Sys2Proof.Machine

/-! ### Legal responses -/

/-- A decoder's response is legal when its successes are and its deficits lie within the bounds of R141. -/
theorem legal_responseOf {α : Type} {wrap : α → Nat → Result} {d : Decoded α} (hok : ∀ v c, d = .ok v c → (wrap v c).legal = true)
    (hshort : ∀ n, d = .raised (.bufferTooShort n) → 1 ≤ n ∧ n ≤ maxMissing) : (responseOf wrap d).legal = true := by
  match d with
  | .ok v c => exact hok v c rfl
  | .raised (.bufferTooShort n) =>
    obtain ⟨hpos, hmax⟩ := hshort n rfl
    simp [responseOf, abnormalOf, Response.legal, hpos, hmax]
  | .raised .invalidDiscriminant => rfl

/-- The deficits of a decoder that asks for at most `maxMissing` bytes (R141). -/
theorem deficit_bounds_of_shortBelow {α : Type} {d : Buffer → Decoded α} {required : Buffer → Nat} (hd : ShortBelow d required)
    {b : Buffer} (hmax : required b - b.length ≤ maxMissing) {n : Nat} (h : d b = .raised (.bufferTooShort n)) :
    1 ≤ n ∧ n ≤ maxMissing := by
  obtain ⟨hshort, rfl⟩ := (hd b n).mp h
  omega

theorem le_maxMissing {n : Nat} (h : n ≤ 40) (k : Nat) : n - k ≤ maxMissing := by
  have hmax : 40 ≤ maxMissing := by decide
  omega

theorem legal_peakDes (b : Buffer) : (responseOf .peak (peakDes b)).legal = true := by
  refine legal_responseOf (fun p c h => ?_)
    fun n h => deficit_bounds_of_shortBelow peakDes_shortBelow (le_maxMissing (by decide) _) h
  obtain ⟨-, -, rfl⟩ := desFixed_eq_ok_iff.mp h
  rfl

theorem legal_cfgDes (b : Buffer) : (responseOf .cfg (cfgDes b)).legal = true := by
  refine legal_responseOf (fun p c h => ?_)
    fun n h => deficit_bounds_of_shortBelow cfgDes_shortBelow (le_maxMissing (by decide) _) h
  obtain ⟨-, -, rfl⟩ := desFixed_eq_ok_iff.mp h
  rfl

theorem legal_msgDes (b : Buffer) : (responseOf .msg (msgDes b)).legal = true := by
  refine legal_responseOf (fun m c h => ?_)
    fun n h => deficit_bounds_of_shortBelow msgDes_shortBelow (deficit_le_maxMissing b) h
  obtain ⟨rfl, -, hm, -⟩ := msgDes_ok h
  simp [Result.legal, hm]

theorem legal_statDecoded {wrap : Status → Nat → Result} {n : Nat} (hwrap : ∀ st, (wrap st n).legal = true) (x : Byte) :
    (responseOf wrap (statDecoded x n)).legal = true := by
  refine legal_responseOf (fun st c h => ?_) fun k h => absurd h (statDecoded_ne_bufferTooShort x n k)
  rw [consumed_of_statDecoded_ok h]
  exact hwrap st

theorem legal_statDes (b : Buffer) : (responseOf .stat (statDes b)).legal = true := by
  cases b with
  | nil => rfl
  | cons x rest => exact legal_statDecoded (fun _ => rfl) x

/-- A message's encoding has a format's length (R34, R131). -/
theorem legal_out_msgBytes (m : Message) : (Result.out (msgBytes m)).legal = true := by
  rw [Result.legal, length_msgBytes]
  cases m with
  | data ps => simp [msgLen, Config.dataHdrLen, Config.peakLen]
  | status st => rfl
  | config c => rfl

theorem legal_unpacked {p : MeasuredPeak} (h : InPackedRange p) : (Result.unpacked p).legal = true := by
  obtain ⟨ht, hc, hs, hh⟩ := h
  simp only [Result.legal, ht, hc, hs, hh, decide_true, Bool.and_self]

theorem answerOf_msgSer_eq_ok {m : Message} {r : Response} (h : answerOf (.msgSer m) = .ok r) : r = .ok (.out (msgBytes m)) := by
  cases m with
  | data ps =>
    rw [answerOf] at h
    split at h
    · exact (Except.ok.inj h).symm
    · cases h
  | status st => exact (Except.ok.inj h).symm
  | config c => exact (Except.ok.inj h).symm

theorem answerOf_msgData_eq_ok {ps : List MeasuredPeak} {r : Response} (h : answerOf (.msgData ps) = .ok r) :
    (Message.data ps).presentable = true ∧ r = .ok (.msg (.data ps) (msgLen (.data ps))) := by
  rw [answerOf] at h
  split at h
  case isTrue hlen => exact ⟨decide_eq_true (Nat.le_sub_one_of_lt hlen), (Except.ok.inj h).symm⟩
  case isFalse => cases h

/-- Every response an instruction gives is one the spec allows. -/
theorem legal_of_answerOf {i : Instr} {r : Response} (h : answerOf i = .ok r) : r.legal = true := by
  cases i with
  | opFRefused => cases h
  | unpackPeak input =>
    obtain rfl := Except.ok.inj h
    split
    · exact legal_unpacked (packed12Peak_inRange input)
    · rfl
  | packed12 t c sp ph => exact Except.ok.inj h ▸ legal_unpacked (packedRecord_inRange t c sp ph)
  | peakSer p => exact Except.ok.inj h ▸ by simp [Response.legal, Result.legal]
  | cfgSer c => exact Except.ok.inj h ▸ by simp [Response.legal, Result.legal]
  | peakDes input => exact Except.ok.inj h ▸ legal_peakDes input
  | cfgDes input => exact Except.ok.inj h ▸ legal_cfgDes input
  | statDes input => exact Except.ok.inj h ▸ legal_statDes input
  | msgDes input => exact Except.ok.inj h ▸ legal_msgDes input
  | statInvalid x => exact Except.ok.inj h ▸ legal_statDecoded (fun _ => rfl) x
  | msgStatus x => exact Except.ok.inj h ▸ legal_statDecoded (fun _ => rfl) x
  | msgInvalidTag x => exact Except.ok.inj h ▸ legal_msgDes [x]
  | msgSer m => exact answerOf_msgSer_eq_ok h ▸ legal_out_msgBytes m
  | msgData ps =>
    obtain ⟨hm, rfl⟩ := answerOf_msgData_eq_ok h
    simp [Response.legal, Result.legal, hm]
  | _ => exact Except.ok.inj h ▸ rfl

/-! ### The invariant -/

theorem legal_of_replyTo {p : Presented} {r : Response} (h : replyTo p = .ok r) : r.legal = true := by
  cases hp : decode p with
  | error e => rw [replyTo_of_decode_error hp] at h; cases h
  | ok i => exact legal_of_answerOf (replyTo_of_decode hp ▸ h)

/-- A legal response makes the invariant hold, whatever the state before it: an `FLT` is recorded as it is given (R150). -/
theorem inv_respond {r : Response} (h : r.legal = true) (s : State) : (s.respond r).inv := by
  unfold State.inv
  rw [State.respond_response]
  refine ⟨fun r' hr' => Option.some.inj hr' ▸ h, fun hr => ?_⟩
  rw [Option.some.inj hr]
  rfl

/-- With no response held there is nothing to be legal. -/
theorem inv_of_response_none {s : State} (h : s.response = none) : s.inv := by
  unfold State.inv
  simp [h]

/-- Settles O57: an idle step changes nothing, and any other gives a legal response. -/
theorem stepKeepsInvariant : Obligations.StepKeepsInvariant := by
  intro s t hinv h
  obtain ⟨-, rfl⟩ | ⟨p, rest, r, -, hr, rfl⟩ := step_eq_next_iff.mp h
  · exact hinv
  · exact inv_respond (legal_of_replyTo hr) _

/-- Settles O58: issuing touches neither field the invariant speaks of, and a reset leaves no response. -/
theorem callerAndResetKeepInvariant : Obligations.CallerAndResetKeepInvariant :=
  fun s hinv => ⟨fun _ => hinv, inv_of_response_none s.resetBlock_response, inv_of_response_none s.resetDuring_response⟩

/-- Settles O59: no response is held. -/
theorem resetMeetsInvariant : Obligations.ResetMeetsInvariant := inv_of_response_none State.reset_response

theorem missing_eq_some_iff {r : Response} {n : Nat} : r.missing = some n ↔ r = .raised (.bufferTooShort n) := by
  match r with
  | .ok _ => simp [Response.missing]
  | .raised (.bufferTooShort _) => simp [Response.missing]
  | .raised .invalidDiscriminant => simp [Response.missing]
  | .raised .invalidInputLength => simp [Response.missing]

/-- Settles O36: a legal deficit is at most `18 * (2^64 - 1)`, which is below `2^69`. -/
theorem deficitsFitSixtyNineBits : Obligations.DeficitsFitSixtyNineBits := by
  intro i s t r n ht hr hn
  have hlegal := legal_of_answerOf (answerOf_of_exec ht hr)
  rw [missing_eq_some_iff.mp hn] at hlegal
  simp only [Response.legal, Bool.and_eq_true, decide_eq_true_eq] at hlegal
  obtain ⟨hpos, hmax⟩ := hlegal
  have hwidth : maxMissing < 2 ^ 69 := by decide
  exact ⟨hpos, hmax, Nat.lt_of_le_of_lt hmax hwidth⟩

/-! ### Readable fields -/

/-- The fields a result holds (R12). -/
def fieldsOf : Result → List Spec.Field
  | .out _ => [.out, .outLen]
  | .val16 _ => [.rval]
  | .val32 _ => [.rval]
  | .val64 _ => [.rval]
  | .unpacked _ => [.rpeak]
  | .peak _ _ => [.consumed, .rpeak]
  | .cfg _ _ => [.consumed, .rcfg]
  | .stat _ _ => [.consumed, .rstat]
  | .msg _ _ => [.consumed, .rmsg]

theorem readable_ok (res : Result) (f : Spec.Field) : Spec.readable (.ok res) f = (fieldsOf res).contains f := by
  cases res <;> cases f <;> rfl

theorem readable_ok_iff (res : Result) (f : Spec.Field) : Spec.readable (.ok res) f = true ↔ f ∈ fieldsOf res := by
  rw [readable_ok, List.contains_iff_mem]

theorem readable_raised (x : Abnormal) (f : Spec.Field) :
    Spec.readable (.raised x) f = (decide (f = .missing) && decide (x.status = 1)) := by
  cases x <;> cases f <;> rfl

/-- The one field of a result that holds its value; the others hold lengths (R12). -/
def valueField : Result → Spec.Field
  | .out _ => .out
  | .val16 _ => .rval
  | .val32 _ => .rval
  | .val64 _ => .rval
  | .unpacked _ => .rpeak
  | .peak _ _ => .rpeak
  | .cfg _ _ => .rcfg
  | .stat _ _ => .rstat
  | .msg _ _ => .rmsg

/-- The six fields that can hold a value (R12). -/
abbrev valueFields : List Spec.Field := [.out, .rval, .rpeak, .rcfg, .rstat, .rmsg]

theorem valueField_mem (res : Result) : valueField res ∈ valueFields := by
  cases res <;> simp only [valueField] <;> decide

theorem contains_fieldsOf_iff (res : Result) : ∀ g ∈ valueFields, (fieldsOf res).contains g = true ↔ g = valueField res := by
  cases res <;> simp only [fieldsOf, valueField] <;> decide

/-- `consumed` stands beside what was decoded from a buffer (R13). -/
theorem consumed_beside (res : Result) : (fieldsOf res).contains .consumed = true →
    (fieldsOf res).contains .out = false ∧ (fieldsOf res).contains .rval = false := by
  cases res <;> simp only [fieldsOf] <;> decide

/-- The code 0 is that of a result (R140). -/
theorem exists_ok_of_status {r : Response} (h : r.status = 0) : ∃ res, r = .ok res := by
  match r with
  | .ok res => exact ⟨res, rfl⟩
  | .raised x => cases x <;> cases h

theorem responseOf_eq_ok {α : Type} {wrap : α → Nat → Result} {d : Decoded α} {res : Result} (h : responseOf wrap d = .ok res) :
    ∃ v c, res = wrap v c := by
  cases d with
  | ok v c => exact ⟨v, c, (Response.ok.inj h).symm⟩
  | raised e => cases h

/-- A successful answer holds the fields the table of R12 lists for the instruction. -/
theorem fieldsOf_of_answerOf {i : Instr} {res : Result} (h : answerOf i = .ok (.ok res)) : fieldsOf res = Spec.listed i := by
  have hdes {α : Type} {wrap : α → Nat → Result} {d : Decoded α} {fields : List Spec.Field}
      (hd : (.ok (responseOf wrap d) : Except Refusal Response) = .ok (.ok res)) (hwrap : ∀ v c, fieldsOf (wrap v c) = fields) :
      fieldsOf res = fields := by
    obtain ⟨v, c, rfl⟩ := responseOf_eq_ok (Except.ok.inj hd)
    exact hwrap v c
  cases i with
  | opFRefused => cases h
  | peakDes input => exact hdes h fun _ _ => rfl
  | cfgDes input => exact hdes h fun _ _ => rfl
  | statDes input => exact hdes h fun _ _ => rfl
  | msgDes input => exact hdes h fun _ _ => rfl
  | statInvalid x => exact hdes h fun _ _ => rfl
  | msgStatus x => exact hdes h fun _ _ => rfl
  | msgInvalidTag x => exact hdes h fun _ _ => rfl
  | unpackPeak input =>
    have hok := Except.ok.inj h
    split at hok
    · cases hok; rfl
    · cases hok
  | msgSer m => cases answerOf_msgSer_eq_ok h; rfl
  | msgData ps => cases (answerOf_msgData_eq_ok h).2; rfl
  | _ => cases h; rfl

/-- Settles O37: a result holds the fields the table lists, one of them its value; an abnormal outcome holds a deficit or
nothing. -/
theorem invalidFieldsCannotBeRead : Obligations.InvalidFieldsCannotBeRead := by
  refine ⟨fun i s t r ht hr f hstatus => ?_, fun r f => ?_, fun r hstatus => ?_⟩
  · obtain ⟨res, rfl⟩ := exists_ok_of_status hstatus
    rw [readable_ok_iff, fieldsOf_of_answerOf (answerOf_of_exec ht hr)]
  · match r with
    | .ok res => exact ⟨fun h => (nomatch h), fun h => (nomatch h)⟩
    | .raised x =>
      refine ⟨fun (h : x.status = 1) => ?_, fun (h : x.status = 2 ∨ x.status = 3) => ?_⟩
      · rw [readable_raised, decide_eq_true h, Bool.and_true, decide_eq_true_iff]
      · have hne : x.status ≠ 1 := by rintro h1; simp [h1] at h
        rw [readable_raised, decide_eq_false hne, Bool.and_false]
  · obtain ⟨res, rfl⟩ := exists_ok_of_status hstatus
    simp only [readable_ok]
    exact ⟨by cases res <;> rfl, ⟨valueField res, valueField_mem res, contains_fieldsOf_iff res⟩, by cases res <;> rfl,
      consumed_beside res⟩

end Sys2Proof.Machine

/-!
PROOFS. Family other, part 8: round trips of the primitive codec, the records and the messages (R86, R108, R132), the lengths and
bytes of the serializers (R109, R131), and what the remaining operations and strings complete with.
-/

namespace Sys2Proof.Machine

/-! ### Primitives -/

/-- Settles O4: the law of R86 on the operations, read off the laws of the codec at each width. -/
theorem primitiveCodecIsABijection : Obligations.PrimitiveCodecIsABijection := by
  refine ⟨fun v s u => ⟨_, _, rfl, ?_⟩, fun b0 b1 s u => ⟨_, rfl, ?_⟩, fun v s u => ⟨_, _, _, _, rfl, ?_⟩,
    fun b0 b1 b2 b3 s u => ⟨_, rfl, ?_⟩, fun v s u => ⟨_, _, _, _, _, _, _, _, rfl, ?_⟩,
    fun b0 b1 b2 b3 b4 b5 b6 b7 s u => ⟨_, rfl, ?_⟩⟩
  · rw [exec_dec16, beDec16_extract, State.complete_eq]
  · rw [exec_enc16, beDec_w16, beEnc16_beDec16, State.complete_eq]
  · rw [exec_dec32, beDec32_extract, State.complete_eq]
  · rw [exec_enc32, beDec_w32, beEnc32_beDec32, State.complete_eq]
  · rw [exec_dec64, beDec64_extract, State.complete_eq]
  · rw [exec_enc64, beDec_w64, beEnc64_beDec64, State.complete_eq]

/-! ### Records and messages -/

/-- STAT_DES reads back the byte STAT_SER wrote (R104, R105). -/
theorem exec_statDes_statByte (st : Status) (rest : Buffer) (s : State) :
    exec (.statDes (statByte st :: rest)) s = .next { s with response := some (.ok (.stat st 1)) } := by
  rw [exec_statDes_cons]
  cases st <;> rfl

/-- MSG_DES reads back the bytes MSG_SER wrote, whatever follows them (R132). -/
theorem exec_msgDes_msgBytes {m : Message} (hm : m.presentable = true) (rest : Buffer) (s : State) :
    exec (.msgDes (msgBytes m ++ rest)) s = .next { s with response := some (.ok (.msg m (msgBytes m).length)) } := by
  rw [exec_msgDes_eq, msgDes_msgBytes m hm, responseOf, length_msgBytes]

/-- A success of MSG_DES is a success of its decoder. -/
theorem msgDes_of_exec {b : Buffer} {s t : State} {m : Message} {c : Nat} (h : exec (.msgDes b) s = .next t)
    (hr : t.response = some (.ok (.msg m c))) : msgDes b = .ok m c := by
  rw [exec_msgDes, Host.Outcome.next.injEq] at h
  subst h
  obtain ⟨m', c', hdes, hres⟩ := State.answer_response_ok hr
  rw [Result.msg.injEq] at hres
  rw [hdes, hres.1, hres.2]

/-- Settles O27: the decoder finds the message at the head of the buffer, and what it consumed is the message's encoding. -/
theorem messageRoundTripIsUnique : Obligations.MessageRoundTripIsUnique := by
  refine ⟨fun m extra s u hm => ⟨msgBytes m, exec_msgSer_of_presentable hm s, exec_msgDes_msgBytes hm extra u⟩,
    fun b m c s u t ht hr => ?_⟩
  obtain ⟨-, -, hm, hbytes⟩ := msgDes_ok (msgDes_of_exec ht hr)
  rw [exec_msgSer_of_presentable hm, hbytes, State.complete_eq]

/-- Settles O31: the message's encoding is what was consumed. -/
theorem msgDesConsumesExactlyTheMessage : Obligations.MsgDesConsumesExactlyTheMessage := by
  intro input s t m c ht hr
  obtain ⟨hc, hle, hm, -⟩ := msgDes_ok (msgDes_of_exec ht hr)
  exact ⟨by rw [hc, ← length_msgBytes, msgBytes_eq_messageBytes hm], hle, hm⟩

/-- The two status bytes are the bytes of the two statuses (R55). -/
theorem exists_statByte_eq {x : Byte} (h : x.toNat < 2) : ∃ st, x = statByte st := by
  obtain h0 | h1 : x.toNat = 0 ∨ x.toNat = 1 := by omega
  · exact ⟨.start, BitVec.eq_of_toNat_eq h0⟩
  · exact ⟨.stop, BitVec.eq_of_toNat_eq h1⟩

/-- Settles O14: each record and message is read back from its encoding, and the encoding of what stands in a record's bytes is
those bytes. -/
theorem recordRoundTrips : Obligations.RecordRoundTrips := by
  refine ⟨fun p s u => ⟨_, exec_peakSer p s, length_peak18Bytes p, ?_⟩, fun c s u => ⟨_, exec_cfgSer c s, length_cfg40Bytes c, ?_⟩,
    fun st s u => ⟨_, exec_statSer st s, rfl, exec_statDes_statByte st [] u⟩,
    fun m s u hm => ⟨_, exec_msgSer_of_presentable hm s, ?_⟩, fun b s u hb => ⟨_, exec_peakDes_ok hb s, ?_⟩,
    fun b s u hb => ⟨_, exec_cfgDes_ok hb s, ?_⟩, fun x s u hx => ?_⟩
  · rw [exec_peakDes_ok (length_peak18Bytes p), peak18At_peak18Bytes_zero]
  · rw [exec_cfgDes_ok (length_cfg40Bytes c), cfg40At_cfg40Bytes_zero]
  · simpa only [List.append_nil] using exec_msgDes_msgBytes hm [] u
  · rw [exec_peakSer, peak18Bytes_peak18At hb.ge, memRead_all hb, State.complete_eq]
  · rw [exec_cfgSer, cfg40Bytes_cfg40At hb.ge, memRead_all hb, State.complete_eq]
  · obtain ⟨st, rfl⟩ := exists_statByte_eq hx
    exact ⟨st, exec_statDes_statByte st [] s, exec_statSer st u⟩

/-- Settles O15: the length test alone decides, and the shortfall is what makes it pass. -/
theorem recordShortfallIsExact : Obligations.RecordShortfallIsExact := by
  refine ⟨fun b extra s hb hextra => ?_, fun b extra s hb hextra => ?_, fun x s => ?_⟩
  · have hlen : (b ++ extra).length = 18 := by rw [List.length_append]; omega
    exact ⟨by rw [exec_peakDes_eq, if_pos hb], by omega, by omega, _, exec_peakDes_ok hlen s⟩
  · have hlen : (b ++ extra).length = 40 := by rw [List.length_append]; omega
    exact ⟨by rw [exec_cfgDes_eq, if_pos hb], by omega, by omega, _, exec_cfgDes_ok hlen s⟩
  · refine ⟨rfl, _, exec_statDes [x] s, fun n h => ?_⟩
    rw [State.answer_eq_respond, State.respond_response, Option.some.injEq, responseOf_eq_bufferTooShort_iff] at h
    exact statDecoded_ne_bufferTooShort x _ n h

/-- Settles O18: the model's encoding is the table's. -/
theorem msgSerWritesData : Obligations.MsgSerWritesData := by
  refine ⟨fun r hop hm => (decode_request_msgSer hop).trans (decodeMsgSer_of_presentable hm), fun peaks s hlen => ?_⟩
  have hm : (Message.data peaks).presentable = true := decide_eq_true hlen
  rw [exec_msgSer_of_presentable hm, msgBytes_eq_messageBytes hm, Spec.messageBytes, State.complete_eq]

/-- Settles O26: each serializer completes with an encoding whose length is known. -/
theorem serializedLengths : Obligations.SerializedLengths :=
  ⟨fun peaks s hlen =>
      ⟨_, exec_msgSer_of_presentable (m := .data peaks) (decide_eq_true hlen) s, length_msgBytes (.data peaks)⟩,
    fun st s => ⟨_, exec_msgSer_status st s, rfl⟩, fun c s => ⟨_, exec_msgSer_config c s, length_msgBytes (.config c)⟩,
    fun p s => ⟨_, exec_peakSer p s, length_peak18Bytes p⟩, fun c s => ⟨_, exec_cfgSer c s, length_cfg40Bytes c⟩,
    fun st s => ⟨_, exec_statSer st s, rfl⟩⟩

/-- Settles O20: the empty buffer and the one-byte buffers, each stopped by the first test that fails. -/
theorem msgDesTestsEmptyThenTag : Obligations.MsgDesTestsEmptyThenTag :=
  ⟨fun _ hop => decode_request_msgDes hop, fun s => exec_msgDes_short (b := []) Nat.one_pos s,
    fun tag s htag => msgDesRejectsOtherTags tag [] s htag, fun s => exec_msgDes_short (b := [tagData]) (by decide) s,
    fun s => exec_msgDes_short (b := [tagStatus]) (by decide) s, fun s => exec_msgDes_short (b := [tagConfig]) (by decide) s⟩

/-- Settles O29: the nine zero bytes are the encoding of the message without peaks. -/
theorem emptyDataMessageIsValid : Obligations.EmptyDataMessageIsValid := by
  intro s
  have hbytes : msgBytes (.data []) = List.replicate 9 0x00 := rfl
  have hm : (Message.data []).presentable = true := rfl
  rw [← hbytes]
  exact ⟨exec_msgSer_of_presentable hm s, exec_msgDes_msgBytes hm [] s⟩

/-- Settles O7: the length test fails, and raising records the fault. -/
theorem unpackPeakFaultsOnOtherLengths : Obligations.UnpackPeakFaultsOnOtherLengths :=
  fun _ s hlen => exec_unpackPeak_fault hlen s

/-! ### Wire strings -/

/-- Settles O39: zero-extension keeps a field's number. -/
theorem recordFormatStringsComplete : Obligations.RecordFormatStringsComplete := by
  refine ⟨fun v s => rfl, fun v s => rfl, fun v s => rfl, fun t c sp h s => ?_, fun p s => rfl, fun c s => rfl⟩
  simp only [BitVec.ofNat_toNat]
  rfl

/-- An instruction whose answer is known, other than `FLT`, completes with it and changes the response alone. -/
theorem exec_of_answerOf {i : Instr} {r : Response} (h : answerOf i = .ok r) (hne : r ≠ .raised .invalidInputLength) (s : State) :
    exec i s = .next { s with response := some r } := by
  rw [exec_eq_outcomeOf, h, outcomeOf_ok, State.respond_eq, if_neg hne]

/-- Settles O40: each string's answer is the one of the operation that reads it. -/
theorem statusAndMessageStringsComplete : Obligations.StatusAndMessageStringsComplete := by
  refine ⟨fun s => rfl, fun s => rfl, fun x s hx => ?_, fun peaks s hlen => ?_, fun x s => ?_, fun c s => ?_, fun x s hx => ?_⟩
  · refine exec_of_answerOf ?_ (by simp) s
    rw [answerOf, statDecoded_of_two_le hx]
    rfl
  · have hm : (Message.data peaks).presentable = true := decide_eq_true (Nat.le_sub_one_of_lt hlen)
    exact exec_of_answerOf (answerOf_messageRow hm) (by simp) s
  · rw [← responseOf_msgDes_status x []]
    refine exec_of_answerOf ?_ (responseOf_ne_invalidInputLength _ _) s
    rw [responseOf_msgDes_statusByte, answerOf]
  · exact exec_of_answerOf (answerOf_messageRow (m := .config c) rfl) (by simp) s
  · refine exec_of_answerOf ?_ (by simp) s
    rw [answerOf, msgDes_other hx]
    rfl

/-! ### Streams -/

/-- One turn of the caller's loop (R129, R148, R149): a message is delivered and the cursor moves behind it. -/
theorem readStream_ok {fuel : Nat} {buf : Buffer} {cur c : Nat} {m : Message} (hcur : cur < buf.length)
    (h : msgDes (buf.drop cur) = .ok m c) :
    readStream (fuel + 1) buf cur =
      { readStream fuel buf (cur + c) with delivered := m :: (readStream fuel buf (cur + c)).delivered } := by
  rw [readStream, if_pos hcur, h]

theorem readStream_end {fuel : Nat} {buf : Buffer} {cur : Nat} (hcur : buf.length ≤ cur) :
    readStream (fuel + 1) buf cur = ⟨[], cur, .finished⟩ := by
  rw [readStream, if_neg (Nat.not_lt.mpr hcur)]

theorem readStream_waiting {fuel : Nat} {buf : Buffer} {cur n : Nat} (hcur : cur < buf.length)
    (h : msgDes (buf.drop cur) = .raised (.bufferTooShort n)) : readStream (fuel + 1) buf cur = ⟨[], cur, .waiting n⟩ := by
  rw [readStream, if_pos hcur, h]

theorem readStream_corrupt {fuel : Nat} {buf : Buffer} {cur : Nat} (hcur : cur < buf.length)
    (h : msgDes (buf.drop cur) = .raised .invalidDiscriminant) : readStream (fuel + 1) buf cur = ⟨[], cur, .corrupt⟩ := by
  rw [readStream, if_pos hcur, h]

theorem length_msgBytes_pos (m : Message) : 0 < (msgBytes m).length := by
  cases m <;> exact Nat.succ_pos _

/-- Every message of a stream takes a byte at least, so one decode per byte is enough (log 19). -/
theorem length_le_length_flatMap_msgBytes (ms : List Message) : ms.length ≤ (ms.flatMap msgBytes).length := by
  induction ms with
  | nil => rfl
  | cons m ms ih =>
    have hpos := length_msgBytes_pos m
    rw [List.flatMap_cons, List.length_append, List.length_cons]
    omega

/-- The loop delivers the messages that stand at the cursor, in order, and goes on behind them, whatever stands before and after
them. -/
theorem readStream_messages {ms : List Message} (hms : ∀ m ∈ ms, m.presentable = true) (fuel : Nat) (before tail : Buffer) :
    readStream (ms.length + fuel) (before ++ (ms.flatMap msgBytes ++ tail)) before.length =
      let after := readStream fuel (before ++ (ms.flatMap msgBytes ++ tail)) (before.length + (ms.flatMap msgBytes).length)
      { after with delivered := ms ++ after.delivered } := by
  induction ms generalizing before with
  | nil => simp
  | cons m ms ih =>
    have hm := hms m List.mem_cons_self
    have hpos := length_msgBytes_pos m
    have hbuf : before ++ ((m :: ms).flatMap msgBytes ++ tail) = before ++ msgBytes m ++ (ms.flatMap msgBytes ++ tail) := by
      rw [List.flatMap_cons, List.append_assoc, List.append_assoc]
    have hdes : msgDes ((before ++ msgBytes m ++ (ms.flatMap msgBytes ++ tail)).drop before.length) =
        .ok m (msgBytes m).length := by
      rw [List.append_assoc, List.drop_left, msgDes_msgBytes m hm, length_msgBytes]
    have hcur : before.length < (before ++ msgBytes m ++ (ms.flatMap msgBytes ++ tail)).length := by
      simp only [List.length_append]
      omega
    have hrest := ih (fun m' hm' => hms m' (List.mem_cons_of_mem m hm')) (before ++ msgBytes m)
    rw [List.length_append] at hrest
    rw [hbuf, List.length_cons, Nat.add_right_comm, readStream_ok hcur hdes, hrest, List.flatMap_cons, List.length_append,
      Nat.add_assoc]
    rfl

/-- The loop over messages and a tail ends as it ends on the tail. -/
theorem readAll_messages {ms : List Message} (hms : ∀ m ∈ ms, m.presentable = true) {tail : Buffer} {stop : StreamStop}
    (htail : ∀ fuel, readStream (fuel + 1) (ms.flatMap msgBytes ++ tail) (ms.flatMap msgBytes).length =
      ⟨[], (ms.flatMap msgBytes).length, stop⟩) :
    readAll (ms.flatMap msgBytes ++ tail) = ⟨ms, (ms.flatMap msgBytes).length, stop⟩ := by
  obtain ⟨fuel, hfuel⟩ : ∃ fuel, (ms.flatMap msgBytes ++ tail).length + 1 = ms.length + (fuel + 1) := by
    have hlen := length_le_length_flatMap_msgBytes ms
    rw [List.length_append]
    exact ⟨(ms.flatMap msgBytes).length + tail.length - ms.length, by omega⟩
  have hread := readStream_messages hms (fuel + 1) [] tail
  simp only [List.nil_append, List.length_nil, Nat.zero_add, htail, List.append_nil] at hread
  rw [readAll, hfuel, hread]

theorem flatMap_msgBytes_eq_messageBytes {ms : List Message} (hms : ∀ m ∈ ms, m.presentable = true) :
    ms.flatMap msgBytes = ms.flatMap Spec.messageBytes :=
  List.flatMap_congr fun m hm => msgBytes_eq_messageBytes (hms m hm)

/-- Settles O34, by induction on the messages: the loop reaches the tail, and the tail's first decode says why it stops there. -/
theorem streamsAreReadInOrder : Obligations.StreamsAreReadInOrder := by
  intro ms hms
  rw [← flatMap_msgBytes_eq_messageBytes hms]
  refine ⟨?_, fun x rest hx => readAll_messages hms fun fuel => ?_, fun m n hm hpos hn => ?_⟩
  · have hall := readAll_messages (tail := []) hms fun fuel => readStream_end (by rw [List.append_nil])
    rwa [List.append_nil] at hall
  · refine readStream_corrupt (by simp) ?_
    rw [List.drop_left, msgDes_other hx]
  · rw [← msgBytes_eq_messageBytes hm] at hn ⊢
    obtain ⟨hshort, hdeficit⟩ := msgRequired_take_msgBytes hm hn
    have hlen : ((msgBytes m).take n).length = n := by rw [List.length_take]; omega
    refine readAll_messages hms fun fuel => readStream_waiting ?_ ?_
    · rw [List.length_append, hlen]
      omega
    · rw [List.drop_left, msgDes_shortBelow, hlen]
      exact ⟨hshort, hdeficit⟩

end Sys2Proof.Machine
